-- ==== Sys2Proof/Word.lean ====
section
/-! DEFINITION. The widths of the block's values (spec/00_scope.md R7, R8; spec/10_state.md R25). -/

namespace Sys2Proof

/-- A byte is 8 bits (R8). -/
abbrev Byte := BitVec 8

/-- A 16-bit field of the frame or of the datapath: EtherType, flags, checksum (R25, R66). -/
abbrev Half := BitVec 16

/-- A 32-bit register of the datapath: ACC, CRCREG, and the FCS value (R25). -/
abbrev Word := BitVec 32

end Sys2Proof
end

