-- ==== Sys2Proof/Config.lean ====
section
/-! DEFINITION. What an implementation fixes (MAX_LEN) and the model's free values. -/

namespace Sys2Proof

/-- MAX_LEN, the largest buffer length the block accepts; `none` is unbounded, which R6 allows a model to take.
DESIGN CHOICE, safe (log 7). -/
def Config.maxLen : Option Nat := none

/-- Is `n` a legal value of the LEN register: 0 to MAX_LEN (R6, R21)? -/
def Config.lenAllowed (n : Nat) : Bool :=
  match Config.maxLen with
  | none => true
  | some m => decide (n ≤ m)

/-- The free values: the `k`-th value drawn where the spec says that a value is unspecified and the machine goes on
(R30, R140, R142, U5: 'draws those bytes freely'). It has no body, so nothing can be proved of a value of it (log 5). -/
opaque Config.unspecified : Nat → Nat

end Sys2Proof
end

