-- ==== Sys2Proof/Machine/State.lean ====
section
/-! DEFINITION. The state of one DFMUT block, its reasons to stop, and the state after reset
(spec/10_state.md R20 to R32). -/

namespace Sys2Proof.Machine

/-- The sequencer's steps (R27), in their order. -/
inductive Phase where
  | idle | checkLen | checkType | flags | unchangedTest | spanCheck
  | writeFlags | zeroCsum | csum | writeCsum | crc | writeFcs
deriving DecidableEq, Repr

/-- The outcomes of an operation (R63, R120). -/
inductive Status where
  /-- The frame has DF = set_df: changed, or already so. -/
  | ok
  /-- LEN < 38. -/
  | frameTooSmall
  /-- The EtherType is not 0x0800. -/
  | notIpv4
  /-- A change was needed and the checksum span does not lie in the buffer. -/
  | spanOutOfFrame
deriving DecidableEq, Repr

/-- The bytes of the frame buffer that have been written, by offset; offsets strictly rising (`Memory.wf`). -/
abbrev Memory := List Host.Cell

/-- Everything the spec gives one block. -/
structure State where
  /-- FB, the frame buffer (R20, R40): offsets 0 to LEN-1 exist for the block. -/
  fb : Memory
  /-- LEN, the length of the buffer in bytes (R21); a natural number since MAX_LEN is unbounded (log 7). -/
  len : Nat
  /-- SET_DF, the command word (R22, R60). -/
  setDf : BitVec 1
  /-- STATUS, the outcome of the last completed operation (R23, R63). -/
  status : BitVec 2
  /-- BUSY: 1 from START until the operation ends (R24; log 18). -/
  busy : Bool
  /-- DONE, held from the end of an operation to the next START: STATUS has a meaning (R24, R149; log 6). -/
  done : Bool
  /-- PHASE, where the sequencer stands (R27). -/
  phase : Phase
  /-- OLD, the flags field as read (R25). -/
  old : Half
  /-- NEW, the flags field with DF forced (R25). -/
  new : Half
  /-- IHL, the low nibble of FB[14] (R25, R68). -/
  ihl : BitVec 4
  /-- SPAN, 4 × IHL (R25, R68). -/
  span : BitVec 6
  /-- ACC, the checksum accumulator (R25, R100). -/
  acc : Word
  /-- CK, the new header checksum (R25, R88). -/
  ck : Half
  /-- CRCREG, the CRC shift register (R25, R110). -/
  crcreg : Word
  /-- How many free values have been drawn: the MODEL's own field, not the spec's (log 5). -/
  draws : Nat
deriving DecidableEq, Repr

/-- Why a step or a caller's access stops with a fault. -/
inductive Fault where
  /-- An access to an offset at or above LEN, which does not exist (R9, R40). Raised by the byte accesses of
  Machine/Memory.lean; a caller's read can raise it, an operation cannot (R48). Safe: nothing is claimed after it. -/
  | outsideBuffer (offset : Nat)
deriving DecidableEq, Repr

/-- Why a step or a caller's access has no meaning. -/
inductive Refusal where
  /-- An instruction the model gives no meaning: raised by no arm now. Safe. -/
  | notModelled (mnemonic : String)
  /-- A read of a byte of FB that nothing has written: the spec gives it no value and tells a model to refuse the
  read (R30, U4). Raised by the byte read. Safe. -/
  | unwrittenByte (offset : Nat)
  /-- START while BUSY = 1: not allowed, no move (R145, U7). Raised by `callerStart`. Safe. -/
  | startWhileBusy
  /-- A caller's access to FB while BUSY = 1: the block owns the buffer (R147, U2). Raised by the caller's byte
  accesses. Safe. -/
  | bufferOwnedByBlock
  /-- A caller's write to LEN or SET_DF while BUSY = 1 (R32, R146). Raised by the caller's register writes. Safe. -/
  | inputsNotStable
  /-- A caller's read of STATUS outside DONE to the next START: it has no defined value (R149, U6). Raised by
  `callerReadStatus`. Safe. -/
  | statusNotDefined
  /-- A caller's write to LEN of a value above MAX_LEN (R6, U8). Raised by `callerWriteLen`. Safe. -/
  | lenAboveMax
deriving DecidableEq, Repr

/-- The block right after reset: BUSY = 0 and PHASE = IDLE (R30, R140), no byte of FB written (log 1). The spec states
no reset value for the other registers; the zeros are DESIGN CHOICE, unsafe (log 2, 3, 4, 5, 6). -/
def State.reset : State where
  fb := []
  len := 0
  setDf := 0#1
  status := 0#2
  busy := false
  done := false
  phase := .idle
  old := 0#16
  new := 0#16
  ihl := 0#4
  span := 0#6
  acc := 0#32
  ck := 0#16
  crcreg := 0#32
  draws := 0

end Sys2Proof.Machine
end

