-- ==== Sys2Proof/Machine/Constants.lean ====
section
/-! DEFINITION. The fixed constants of the block (spec/00_scope.md R5) and the status codes (spec/30_encoding.md R63).
The numeric offsets 12, 20, 24 and the CRC's initial value and final XOR are general knowledge that the spec adopts
(D26, D27; log 15). -/

namespace Sys2Proof.Machine

/-- ETH_HLEN, bytes in the Ethernet header (R5). -/
def ethHlen : Nat := 14

/-- IP_MIN_HLEN, bytes in a minimal IPv4 header (R5). -/
def ipMinHlen : Nat := 20

/-- FCS_LEN, bytes in the trailing FCS (R5). -/
def fcsLen : Nat := 4

/-- MIN_LEN = 38, the least buffer length the block accepts (R5, R83). -/
def minLen : Nat := ethHlen + ipMinHlen + fcsLen

/-- IP_OFF, offset of the first IPv4 header byte (R5). -/
def ipOff : Nat := 14

/-- ETYPE_OFF, offset of the EtherType (R5, R64). -/
def etypeOff : Nat := 12

/-- ETYPE_IPV4 (R5). -/
def etypeIpv4 : Half := 0x0800#16

/-- FRAG_OFF, offset of the fragmentation/flags field (R5, R65). -/
def fragOff : Nat := 20

/-- CSUM_OFF, offset of the header checksum field (R5, R65). -/
def csumOff : Nat := 24

/-- Offset of the FCS in a buffer of `len` bytes: LEN-4 (R67). -/
def fcsOff (len : Nat) : Nat := len - fcsLen

/-- DF_MASK, the DF bit of the flags field (R5, R66). -/
def dfMask : Half := 0x4000#16

/-- CRC_POLY, the reflected CRC-32 polynomial (R5, R111). -/
def crcPoly : Word := 0xEDB88320#32

/-- CRC_INIT (R5, R110). -/
def crcInit : Word := 0xFFFFFFFF#32

/-- CRC_XOROUT (R5, R110). -/
def crcXorOut : Word := 0xFFFFFFFF#32

/-- The code STATUS takes for an outcome (R63). -/
def Status.code : Status → BitVec 2
  | .ok => 0#2
  | .frameTooSmall => 1#2
  | .notIpv4 => 2#2
  | .spanOutOfFrame => 3#2

end Sys2Proof.Machine
end

