-- ==== Sys2Proof/Machine/Memory.lean ====
section
/-! DEFINITION. The frame buffer: its canonical form, byte access, and the big-endian MemRead and MemWrite
(spec/00_scope.md R8, R9; spec/20_memory.md R40 to R48). -/

namespace Sys2Proof.Machine

/-- Run `f` on what `x` answers; a fault or a refusal of `x` stands. -/
def andThen {α β : Type} (x : Host.Outcome α Fault Refusal) (f : α → Host.Outcome β Fault Refusal) :
    Host.Outcome β Fault Refusal :=
  match x with
  | .next a => f a
  | .fault r => .fault r
  | .refused r => .refused r

/-- What a byte that nothing has written reads as: no value (R30, U4; log 1). -/
def Memory.unlisted (_offset : Nat) : Option Byte := none

/-- The byte at an offset, if something has written it. -/
def Memory.lookup : Memory → Nat → Option Byte
  | [], a => Memory.unlisted a
  | (x, b) :: rest, a => if a = x then some b else Memory.lookup rest a

/-- Write one byte, keeping the offsets rising. Writing has no effect beyond the byte written (R45). -/
def Memory.store : Memory → Nat → Byte → Memory
  | [], a, b => [(a, b)]
  | (x, c) :: rest, a, b =>
    if a < x then (a, b) :: (x, c) :: rest
    else if a = x then (a, b) :: rest
    else (x, c) :: Memory.store rest a b

/-- Every offset is at least `lo` and offsets rise strictly. -/
def Memory.risingFrom : Nat → Memory → Bool
  | _, [] => true
  | lo, (x, _) :: rest => decide (lo ≤ x) && Memory.risingFrom (x + 1) rest

/-- The canonical form: offsets strictly rising. An unlisted offset has no value, so no entry can equal it. -/
def Memory.wf (m : Memory) : Bool := Memory.risingFrom 0 m

/-- Write a sequence of bytes at rising offsets. -/
def Memory.storeAll : Memory → Nat → List Byte → Memory
  | m, _, [] => m
  | m, a, b :: bs => Memory.storeAll (m.store a b) (a + 1) bs

/-- The block with another buffer content. -/
def State.withFb (s : State) (m : Memory) : State := { s with fb := m }

/-- One byte of FB: it exists below LEN (R40) and has a value once written (R30). -/
def State.readByte (s : State) (a : Nat) : Host.Outcome Byte Fault Refusal :=
  if a < s.len then
    match s.fb.lookup a with
    | some b => .next b
    | none => .refused (.unwrittenByte a)
  else .fault (.outsideBuffer a)

/-- Write one byte of FB below LEN (R40). -/
def State.writeByte (s : State) (a : Nat) (b : Byte) : Host.Outcome State Fault Refusal :=
  if a < s.len then .next (s.withFb (s.fb.store a b)) else .fault (.outsideBuffer a)

/-- MemRead(a, n) = FB[a] || FB[a+1] || … || FB[a+n-1] (R9). -/
def State.memRead (s : State) (a : Nat) : (n : Nat) → Host.Outcome (BitVec (8 * n)) Fault Refusal
  | 0 => .next 0#0
  | n + 1 => andThen (s.memRead a n) fun v => andThen (s.readByte (a + n)) fun b => .next (v ++ b)

/-- MemWrite(a, n, v): the most significant byte of `v` at `a`, the least at `a+n-1`, in that order (R9). -/
def State.memWrite (s : State) (a : Nat) : (n : Nat) → BitVec (8 * n) → Host.Outcome State Fault Refusal
  | 0, _ => .next s
  | n + 1, v =>
    andThen (s.writeByte a (v.extractLsb' (8 * n) 8)) fun t => t.memWrite (a + 1) n (v.setWidth (8 * n))

/-- The bytes FB[a..a+n-1] in order (R8). -/
def State.readSpan (s : State) (a : Nat) : (n : Nat) → Host.Outcome (List Byte) Fault Refusal
  | 0 => .next []
  | n + 1 => andThen (s.readByte a) fun b => andThen (s.readSpan (a + 1) n) fun bs => .next (b :: bs)

end Sys2Proof.Machine
end

