-- ==== Sys2Proof/Machine/Crc.lean ====
section
/-! DEFINITION. The CRC unit: CRC-32 in its reflected form (spec/42_crc32_fcs.md R110 to R113). -/

namespace Sys2Proof.Machine

/-- One bit step: shift right, and XOR the polynomial when the bit shifted out is 1 (R110). -/
def crcBit (r : Word) : Word :=
  if r.getLsbD 0 then (r >>> 1) ^^^ crcPoly else r >>> 1

/-- `n` bit steps. -/
def crcBits : Nat → Word → Word
  | 0, r => r
  | n + 1, r => crcBits n (crcBit r)

/-- One byte: XORed into bits 7:0, then eight bit steps, so that its least significant bit meets the feedback first
(R110, R112). -/
def crcByte (r : Word) (b : Byte) : Word := crcBits 8 (r ^^^ b.setWidth 32)

/-- CRCREG after a byte sequence, from the register value `r` (R110). -/
def crcRun (r : Word) (s : List Byte) : Word := s.foldl crcByte r

/-- CRC32(s) (R110). -/
def crc32 (s : List Byte) : Word := crcRun crcInit s ^^^ crcXorOut

/-- T[i] of the byte-at-a-time form: the eight bit steps run on the 32-bit value i (R113). -/
def crcTable (i : Byte) : Word := crcBits 8 (i.setWidth 32)

/-- One byte by table: (CRCREG >> 8) ^ T[(CRCREG ^ s[k]) & 0xFF] (R113). -/
def crcByteByTable (r : Word) (b : Byte) : Word :=
  (r >>> 8) ^^^ crcTable ((r ^^^ b.setWidth 32).extractLsb' 0 8)

end Sys2Proof.Machine
end

