-- ==== Sys2Proof/Machine/Csum.lean ====
section
/-! DEFINITION. The CSUM unit: the one's-complement checksum CSUM16 (spec/41_ipv4_checksum.md R100 to R105). -/

namespace Sys2Proof.Machine

/-- The sum of the 16-bit words of a sequence, modulo 2^32, the byte at the lower offset high (R100, R101); an odd
trailing byte is the high byte of a word whose low byte is zero (R102). -/
def csumWords : Word → List Byte → Word
  | acc, [] => acc
  | acc, [b] => acc + (b ++ 0#8).setWidth 32
  | acc, hi :: lo :: rest => csumWords (acc + (hi ++ lo).setWidth 32) rest

/-- One fold: the high half of ACC added to its low half (R100, R104). -/
def csumFold (acc : Word) : Word :=
  (acc.extractLsb' 16 16).setWidth 32 + (acc.extractLsb' 0 16).setWidth 32

/-- ACC when CSUM16 ends: the sum from 0, folded twice (R100). -/
def csumAcc (s : List Byte) : Word := csumFold (csumFold (csumWords 0#32 s))

/-- The result read from a folded ACC: the complement of its low half (R100, R105). -/
def csumResult (acc : Word) : Half := ~~~(acc.extractLsb' 0 16)

/-- CSUM16(s) (R100). -/
def csum16 (s : List Byte) : Half := csumResult (csumAcc s)

end Sys2Proof.Machine
end

