-- ==== Sys2Proof/Machine/Flags.lean ====
section
/-! DEFINITION. The fragmentation/flags field of the frame (spec/30_encoding.md R66, R69; spec/40_df_mutator.md R85).
The block itself has no status flags or condition codes (spec/10_state.md R28). -/

namespace Sys2Proof.Machine

/-- NEW: the flags field with DF forced to set_df, every other bit as it was (R69, R85). -/
def newFlags (setDf : BitVec 1) (old : Half) : Half :=
  if setDf = 1#1 then old ||| dfMask else old &&& ~~~dfMask

/-- The DF bit of a flags field, bit 14 (R66). -/
def dfBit (f : Half) : BitVec 1 := f.extractLsb' 14 1

end Sys2Proof.Machine
end

