-- ==== Sys2Proof/Machine/Ops.lean ====
section
/-! DEFINITION. The named writes of the datapath registers, START, and the one shared ending of an operation
(spec/10_state.md R23 to R27; spec/60_exceptions.md R120, R127, R128). -/

namespace Sys2Proof.Machine

/-- START: BUSY is 1 and the sequencer is at its first step; the DONE of the operation before is over (R24, R27,
R149). -/
def State.started (s : State) : State := { s with busy := true, done := false, phase := .checkLen }

/-- PHASE <- p (R27). -/
def State.withPhase (s : State) (p : Phase) : State := { s with phase := p }

/-- OLD <- old; NEW <- new (R80 S3). -/
def State.withFlags (s : State) (old new : Half) : State := { s with old := old, new := new }

/-- IHL <- ihl; SPAN <- span (R80 S5). -/
def State.withSpan (s : State) (ihl : BitVec 4) (span : BitVec 6) : State := { s with ihl := ihl, span := span }

/-- ACC <- acc; CK <- ck (R80 S8, R100). -/
def State.withCsum (s : State) (acc : Word) (ck : Half) : State := { s with acc := acc, ck := ck }

/-- CRCREG <- r (R110). -/
def State.withCrcreg (s : State) (r : Word) : State := { s with crcreg := r }

/-- LEN <- n, by the caller (R21). -/
def State.withLen (s : State) (n : Nat) : State := { s with len := n }

/-- SET_DF <- d, by the caller (R22). -/
def State.withSetDf (s : State) (d : BitVec 1) : State := { s with setDf := d }

/-- The end of an operation, success or failure alike: STATUS takes the code, BUSY returns to 0, DONE is raised, the
sequencer is idle; nothing is saved and control goes nowhere (R24, R27, R127). -/
def State.finish (s : State) (c : Status) : State :=
  { s with status := c.code, busy := false, done := true, phase := .idle }

/-- `raise c`: the operation ends with a failure code; nothing else is recorded (R120, R125, R127). There is no
return from a failure: the block is idle and takes the next START (R128). -/
def State.raise (s : State) (c : Status) : State := s.finish c

/-- `return OK`: the operation ends with STATUS = OK (R9, R80). -/
def State.returnOk (s : State) : State := s.finish .ok

/-- Where the spec leaves a register or byte unspecified and the machine goes on, the `k`-th value not yet drawn
(R142, U5; log 5). -/
def State.draw (s : State) (k : Nat) : Nat := Config.unspecified (s.draws + k)

end Sys2Proof.Machine
end

