-- ==== Sys2Proof/Machine/Operands.lean ====
section
/-! DEFINITION. The operands of an operation, all read from the frame buffer (spec/30_encoding.md R68 to R70;
spec/40_df_mutator.md R80 S2, S3, S5). -/

namespace Sys2Proof.Machine

/-- ET <- MemRead(12, 2) (R70, R80 S2). -/
def State.readEtherType (s : State) : Host.Outcome Half Fault Refusal := s.memRead etypeOff 2

/-- OLD <- MemRead(20, 2) and NEW computed from it (R69, R80 S3). -/
def State.loadFlags (s : State) (setDf : BitVec 1) : Host.Outcome State Fault Refusal :=
  andThen (s.memRead fragOff 2) fun old => .next (s.withFlags old (newFlags setDf old))

/-- IHL: the low nibble of a header's first byte, taken as it stands (R68). -/
def ihlOf (b : Byte) : BitVec 4 := b.extractLsb' 0 4

/-- SPAN = 4 × IHL (R68). -/
def spanOf (ihl : BitVec 4) : BitVec 6 := 4#6 * ihl.setWidth 6

/-- IHL <- FB[14][3:0]; SPAN <- 4 × IHL (R68, R80 S5). -/
def State.loadSpan (s : State) : Host.Outcome State Fault Refusal :=
  andThen (s.readByte ipOff) fun b => .next (s.withSpan (ihlOf b) (spanOf (ihlOf b)))

/-- Does the checksum span leave the buffer: 14 + SPAN > LEN (R80 S5, R87)? -/
def State.spanLeavesFrame (s : State) : Bool := decide (s.len < ipOff + s.span.toNat)

end Sys2Proof.Machine
end

