-- ==== Sys2Proof/Machine/Mdf.lean ====
section
/-! DEFINITION. The MDF operation and its two forms (spec/40_df_mutator.md R80 to R92). -/

namespace Sys2Proof.Machine

/-- S6: MemWrite(20, 2, NEW) (R80, R88). -/
def State.writeFlags (s : State) : Host.Outcome State Fault Refusal := s.memWrite fragOff 2 s.new

/-- S7: MemWrite(24, 2, 0x0000) (R80, R88). -/
def State.zeroCsum (s : State) : Host.Outcome State Fault Refusal := s.memWrite csumOff 2 0x0000#16

/-- S8: CK <- CSUM16(FB[14 .. 13+SPAN]) (R80, R107). ACC keeps the folded sum (R100; log 11). -/
def State.runCsum (s : State) : Host.Outcome State Fault Refusal :=
  andThen (s.readSpan ipOff s.span.toNat) fun bs => .next (s.withCsum (csumAcc bs) (csumResult (csumAcc bs)))

/-- S9: MemWrite(24, 2, CK) (R80, R88). -/
def State.writeCsum (s : State) : Host.Outcome State Fault Refusal := s.memWrite csumOff 2 s.ck

/-- S10: the CRC over FB[0 .. LEN-5]; CRCREG keeps its value before the final XOR (R80, R110, R114; log 11). -/
def State.runCrc (s : State) : Host.Outcome State Fault Refusal :=
  andThen (s.readSpan 0 (fcsOff s.len)) fun bs => .next (s.withCrcreg (crcRun crcInit bs))

/-- C, the value CRC32 returns, from CRCREG (R110). -/
def State.crcValue (s : State) : Word := s.crcreg ^^^ crcXorOut

/-- S11: MemWrite(LEN-4, 4, C), the most significant byte first (R80, R89, R115). -/
def State.writeFcs (s : State) : Host.Outcome State Fault Refusal := s.memWrite (fcsOff s.len) 4 s.crcValue

/-- S6 to S12: the frame is rewritten; each step sees the writes of the steps before it (R49, R80). -/
def State.rewrite (s : State) : Host.Outcome State Fault Refusal :=
  andThen s.writeFlags fun s6 =>
  andThen s6.zeroCsum fun s7 =>
  andThen s7.runCsum fun s8 =>
  andThen s8.writeCsum fun s9 =>
  andThen s9.runCrc fun s10 =>
  andThen s10.writeFcs fun s11 =>
  .next s11.returnOk

/-- MDF(set_df): the whole operation, from START to DONE as one transition (R12, R80). The tests come in the order of
R126: length, EtherType, unchanged, span. -/
def mdf (setDf : BitVec 1) (s : State) : Host.Outcome State Fault Refusal :=
  if s.len < minLen then .next (s.raise .frameTooSmall)
  else andThen s.readEtherType fun et =>
    if et ≠ etypeIpv4 then .next (s.raise .notIpv4)
    else andThen (s.loadFlags setDf) fun s3 =>
      if s3.new = s3.old then .next s3.returnOk
      else andThen s3.loadSpan fun s5 =>
        if s5.spanLeavesFrame then .next (s5.raise .spanOutOfFrame)
        else s5.rewrite

/-- MDF.CLR: MDF(0) (R81). -/
def execMdfClr (s : State) : Host.Outcome State Fault Refusal := mdf 0#1 s

/-- MDF.SET: MDF(1) (R82). -/
def execMdfSet (s : State) : Host.Outcome State Fault Refusal := mdf 1#1 s

end Sys2Proof.Machine
end

