-- ==== Sys2Proof/Syntax.lean ====
section
/-! DEFINITION. The commands of the block: one constructor per row of spec/opcode_table.json. -/

namespace Sys2Proof

/-- The two commands (spec/30_encoding.md R61). Neither has an operand in its command word: the buffer and its length
are the registers FB and LEN (R60). -/
inductive Instr where
  /-- MDF.CLR: force the DF bit of the frame to 0 (R81). -/
  | mdfClr
  /-- MDF.SET: force the DF bit of the frame to 1 (R82). -/
  | mdfSet
deriving DecidableEq, Repr

end Sys2Proof
end

