-- ==== Sys2Proof/Machine/Dispatch.lean ====
section
/-! DEFINITION. exec: one arm per command. -/

namespace Sys2Proof.Machine

def exec (i : Instr) (s : State) : Host.Outcome State Fault Refusal :=
  match i with
  | .mdfClr => Sys2Proof.Machine.execMdfClr s
  | .mdfSet => Sys2Proof.Machine.execMdfSet s

end Sys2Proof.Machine
end

