-- ==== Sys2Proof/WellFormed.lean ====
section
/-! DEFINITION. What is well formed: every command, and of the bytes that could hold a command word those that hold
one bit. -/

namespace Sys2Proof

/-- Every command is well formed: both values of the command bit are legal (R62) and no command has an operand field
that could be out of range (R60). -/
def Instr.wf : Instr → Bool
  | .mdfClr => true
  | .mdfSet => true

/-- A byte holds a command word when bits 7 to 1 are zero: the command word is one bit wide (R60; log 17). -/
def commandByteWf (b : Byte) : Bool := b.extractLsb' 1 7 == 0#7

end Sys2Proof
end

