-- ==== Sys2Proof/Decode.lean ====
section
/-! DEFINITION. The decoder of the command word, and after it the encoder (spec/30_encoding.md R60 to R62). -/

namespace Sys2Proof

/-- Why bytes do not hold a command word. The command word itself cannot fail to decode (R62). -/
inductive DecodeError where
  /-- There is no byte at all. -/
  | noCommandWord
  /-- A bit above bit 0 is set: the command word is one bit wide (R60). -/
  | widerThanOneBit
deriving DecidableEq, Repr

/-- The command map (R61): the command word is the one bit set_df, and both its values are legal (R62). -/
def decodeCommand (setDf : BitVec 1) : Instr :=
  if setDf = 1#1 then .mdfSet else .mdfClr

/-- A command word stored in a byte, and the bytes after it. -/
def decode : List Byte → Except DecodeError (Instr × List Byte)
  | [] => .error .noCommandWord
  | b :: rest =>
    if commandByteWf b then .ok (decodeCommand (b.extractLsb' 0 1), rest) else .error .widerThanOneBit

/-- The `n` low bytes of `w`, the least significant first: how the opcode table numbers the bits of an instruction. -/
def bytesOfWord : Nat → Nat → List Byte
  | 0, _ => []
  | n + 1, w => BitVec.ofNat 8 w :: bytesOfWord n (w / 256)

/-- The instruction the decoder reads from an instruction whose bits are `w`, numbered as spec/opcode_table.json
numbers them. -/
def decodeTableWord (nbits w : Nat) : Option Instr :=
  match decode (bytesOfWord ((nbits + 7) / 8) w) with
  | .ok (i, _) => some i
  | .error _ => none

/-- The command word of a command: the desired value of the DF bit (R60, R61). -/
def Instr.commandBit : Instr → BitVec 1
  | .mdfClr => 0#1
  | .mdfSet => 1#1

/-- A command word stored in a byte: bit 0 is set_df, bits 7 to 1 are zero (log 17). -/
def encode (i : Instr) : List Byte := [i.commandBit.setWidth 8]

end Sys2Proof
end

