-- ==== Sys2Proof/Machine/Fetch.lean ====
section
/-! DEFINITION. Where the block's command comes from: the register SET_DF, sampled at START (spec/10_state.md R27;
spec/30_encoding.md R60). There is no instruction fetch (spec/20_memory.md R52). -/

namespace Sys2Proof.Machine

/-- The command in SET_DF. -/
def State.command (s : State) : Instr := decodeCommand s.setDf

/-- SET_DF as a byte, as `decode` takes it (log 17). -/
def State.commandBytes (s : State) : List Byte := [s.setDf.setWidth 8]

/-- The command word in the low `nbits` bits of `w`. -/
def commandOfBits (nbits w : Nat) : BitVec 1 := BitVec.ofNat 1 (w % 2 ^ nbits)

end Sys2Proof.Machine
end

