-- ==== Sys2Proof/Machine/Sequencer.lean ====
section
/-! DEFINITION. The sequencer (spec/10_state.md R27, R29): the same operation one PHASE at a time, with the
intermediate states of the buffer that no caller sees. -/

namespace Sys2Proof.Machine

/-- One phase of the sequencer: its step of R80, then the next phase, or IDLE at the four exits and at the end (R27).
In IDLE nothing moves. SET_DF and LEN are read as they stand: they are stable while BUSY = 1 (R146). -/
def tick (s : State) : Host.Outcome State Fault Refusal :=
  match s.phase with
  | .idle => .next s
  | .checkLen => .next (if s.len < minLen then s.raise .frameTooSmall else s.withPhase .checkType)
  | .checkType =>
    andThen s.readEtherType fun et =>
      .next (if et ≠ etypeIpv4 then s.raise .notIpv4 else s.withPhase .flags)
  | .flags => andThen (s.loadFlags s.setDf) fun t => .next (t.withPhase .unchangedTest)
  | .unchangedTest => .next (if s.new = s.old then s.returnOk else s.withPhase .spanCheck)
  | .spanCheck =>
    andThen s.loadSpan fun t =>
      .next (if t.spanLeavesFrame then t.raise .spanOutOfFrame else t.withPhase .writeFlags)
  | .writeFlags => andThen s.writeFlags fun t => .next (t.withPhase .zeroCsum)
  | .zeroCsum => andThen s.zeroCsum fun t => .next (t.withPhase .csum)
  | .csum => andThen s.runCsum fun t => .next (t.withPhase .writeCsum)
  | .writeCsum => andThen s.writeCsum fun t => .next (t.withPhase .crc)
  | .crc => andThen s.runCrc fun t => .next (t.withPhase .writeFcs)
  | .writeFcs => andThen s.writeFcs fun t => .next t.returnOk

/-- `n` phases. -/
def runPhases : Nat → State → Host.Outcome State Fault Refusal
  | 0, s => .next s
  | n + 1, s => andThen (tick s) (runPhases n)

/-- How many phases an operation has at most, CHECK_LEN to WRITE_FCS (R27, R151). -/
def phaseCount : Nat := 11

/-- An operation in flight, run to its end (R128, R151). -/
def resume (s : State) : Host.Outcome State Fault Refusal := runPhases phaseCount s

end Sys2Proof.Machine
end

