-- ==== Sys2Proof/Machine/Step.lean ====
section
/-! DEFINITION. One step of the block: the operation that START has begun, as one transition. -/

namespace Sys2Proof.Machine

/-- One step (R12). In IDLE the block does nothing until START (R27, R134). At CHECK_LEN, where START leaves it, it
runs the whole operation that SET_DF names. From a later phase, which only the sequencer's own phase-by-phase run
shows, it finishes the operation in flight (R128, R151; log 10). -/
def step (s : State) : Host.Outcome State Fault Refusal :=
  match s.phase with
  | .idle => .next s
  | .checkLen => exec s.command s
  | .checkType | .flags | .unchangedTest | .spanCheck | .writeFlags | .zeroCsum | .csum | .writeCsum | .crc
  | .writeFcs => resume s

/-- The block about to run the command word `w`: SET_DF holds it and START has been raised (R22, R24; log 9). -/
def State.withFetchWord (s : State) (nbits w : Nat) : State := (s.withSetDf (commandOfBits nbits w)).started

end Sys2Proof.Machine
end

