-- ==== Sys2Proof/Machine/Caller.lean ====
section
/-! DEFINITION. What the caller can do to the block, and reset (spec/10_state.md R32; spec/70_reset_and_hazards.md
R140 to R149). These are the host interface, not commands of the block. -/

namespace Sys2Proof.Machine

/-- The caller writes a byte of FB while BUSY = 0 (R32, R143); otherwise the block owns the buffer (R147). A byte may
be placed before LEN is written: the order among FB, LEN and SET_DF is free (R143; log 12). -/
def callerWriteByte (a : Nat) (b : Byte) (s : State) : Host.Outcome State Fault Refusal :=
  if s.busy then .refused .bufferOwnedByBlock else .next (s.withFb (s.fb.store a b))

/-- The caller places a whole frame from offset 0 and writes its length, FCS included (R143 items 1 and 2). -/
def callerPlaceFrame (bs : List Byte) (s : State) : Host.Outcome State Fault Refusal :=
  if s.busy then .refused .bufferOwnedByBlock
  else if Config.lenAllowed bs.length then .next ((s.withFb (s.fb.storeAll 0 bs)).withLen bs.length)
  else .refused .lenAboveMax

/-- The caller writes LEN while BUSY = 0 (R21, R32, R146). -/
def callerWriteLen (n : Nat) (s : State) : Host.Outcome State Fault Refusal :=
  if s.busy then .refused .inputsNotStable
  else if Config.lenAllowed n then .next (s.withLen n) else .refused .lenAboveMax

/-- The caller writes SET_DF while BUSY = 0 (R22, R32, R146). -/
def callerWriteSetDf (d : BitVec 1) (s : State) : Host.Outcome State Fault Refusal :=
  if s.busy then .refused .inputsNotStable else .next (s.withSetDf d)

/-- START (R24); it has no move while an operation is in progress (R145). -/
def callerStart (s : State) : Host.Outcome State Fault Refusal :=
  if s.busy then .refused .startWhileBusy else .next s.started

/-- The caller reads a byte of FB while BUSY = 0 (R32, R147). -/
def callerReadByte (a : Nat) (s : State) : Host.Outcome Byte Fault Refusal :=
  if s.busy then .refused .bufferOwnedByBlock else s.readByte a

/-- The caller reads LEN at any time (R32). -/
def callerReadLen (s : State) : Nat := s.len

/-- The caller reads SET_DF at any time (R32). -/
def callerReadSetDf (s : State) : BitVec 1 := s.setDf

/-- The caller reads BUSY at any time (R32). -/
def callerReadBusy (s : State) : Bool := s.busy

/-- The caller reads STATUS between a DONE and the next START; otherwise the read has no value (R32, R149). -/
def callerReadStatus (s : State) : Host.Outcome (BitVec 2) Fault Refusal :=
  if s.done && !s.busy then .next s.status else .refused .statusNotDefined

/-- The offsets an operation on a buffer of `len` bytes may write (R53, R142); none when LEN < 38, for then every
operation ends before its first write. -/
def writeOffsets (len : Nat) : List Nat :=
  if len < minLen then []
  else [fragOff, fragOff + 1, csumOff, csumOff + 1, fcsOff len, fcsOff len + 1, fcsOff len + 2, fcsOff len + 3]

/-- Each of these offsets takes a free value, numbered from `k` (R142). -/
def State.drawBytes (s : State) : Memory → Nat → List Nat → Memory
  | m, _, [] => m
  | m, k, a :: rest => s.drawBytes (m.store a (BitVec.ofNat 8 (s.draw k))) (k + 1) rest

/-- FB after reset: with an operation in flight the bytes it may write are unspecified and drawn freely, every other
byte as it was (R142); in IDLE every byte is unspecified, so none has a value (R30; log 13). -/
def State.fbAfterReset (s : State) : Memory :=
  if s.phase = .idle then [] else s.drawBytes s.fb 10 (writeOffsets s.len)

/-- Reset arrives (R140, R142): BUSY = 0 and PHASE = IDLE; the operation in flight, if any, is abandoned; every other
register is unspecified, so it takes a free value (R30; log 5, 13). No operation has ended since, so DONE is over. -/
def callerReset (s : State) : State where
  fb := s.fbAfterReset
  len := s.draw 0
  setDf := BitVec.ofNat 1 (s.draw 1)
  status := BitVec.ofNat 2 (s.draw 2)
  busy := false
  done := false
  phase := .idle
  old := BitVec.ofNat 16 (s.draw 3)
  new := BitVec.ofNat 16 (s.draw 4)
  ihl := BitVec.ofNat 4 (s.draw 5)
  span := BitVec.ofNat 6 (s.draw 6)
  acc := BitVec.ofNat 32 (s.draw 7)
  ck := BitVec.ofNat 16 (s.draw 8)
  crcreg := BitVec.ofNat 32 (s.draw 9)
  draws := s.draws + 18

/-- The moves from outside the block that change its state: the caller's (R132) and reset (R140). -/
inductive CallerMove where
  | writeByte (offset : Nat) (value : Byte)
  | placeFrame (bytes : List Byte)
  | writeLen (length : Nat)
  | writeSetDf (value : BitVec 1)
  | start
  | reset
deriving DecidableEq, Repr

/-- What a move does. -/
def callerMove (m : CallerMove) (s : State) : Host.Outcome State Fault Refusal :=
  match m with
  | .writeByte a b => callerWriteByte a b s
  | .placeFrame bs => callerPlaceFrame bs s
  | .writeLen n => callerWriteLen n s
  | .writeSetDf d => callerWriteSetDf d s
  | .start => callerStart s
  | .reset => .next (callerReset s)

end Sys2Proof.Machine
end

