-- ==== Sys2Proof/Machine/Reference.lean ====
section
/-! DEFINITION. The operation as a function of the frame alone (spec/10_state.md R26; spec/40_df_mutator.md R80): a
frame is the list of its bytes, FCS included. Written apart from Machine/Mdf.lean, which moves registers and memory. -/

namespace Sys2Proof.Machine

/-- The 16-bit field at an offset, network byte order (R41). -/
def frameHalf (fb : List Byte) (a : Nat) : Half := fb.getD a 0#8 ++ fb.getD (a + 1) 0#8

/-- The frame with a 16-bit field rewritten, network byte order (R41). -/
def frameSetHalf (fb : List Byte) (a : Nat) (v : Half) : List Byte :=
  (fb.set a (v.extractLsb' 8 8)).set (a + 1) (v.extractLsb' 0 8)

/-- IHL of a frame (R68). -/
def frameIhl (fb : List Byte) : Nat := (ihlOf (fb.getD ipOff 0#8)).toNat

/-- The length of the checksum span, 4 × IHL (R68). -/
def frameSpan (fb : List Byte) : Nat := 4 * frameIhl fb

/-- The bytes of the checksum span, FB[14 .. 13+SPAN] (R68). -/
def frameHeader (fb : List Byte) : List Byte := (fb.drop ipOff).take (frameSpan fb)

/-- The bytes the FCS covers, FB[0 .. LEN-5] (R114). -/
def frameBody (fb : List Byte) : List Byte := fb.take (fcsOff fb.length)

/-- The last four bytes (R67). -/
def frameFcs (fb : List Byte) : List Byte := fb.drop (fcsOff fb.length)

/-- A 32-bit value as four bytes, the most significant first (R67, R115). -/
def wordBytes (c : Word) : List Byte :=
  [c.extractLsb' 24 8, c.extractLsb' 16 8, c.extractLsb' 8 8, c.extractLsb' 0 8]

/-- The frame with its flags field rewritten and its checksum recomputed over the new fields (R88). -/
def frameWithChecksum (fb : List Byte) (new : Half) : List Byte :=
  let zeroed := frameSetHalf (frameSetHalf fb fragOff new) csumOff 0x0000#16
  frameSetHalf zeroed csumOff (csum16 (frameHeader zeroed))

/-- The frame with its last four bytes replaced by the CRC-32 of the others (R89). -/
def frameWithFcs (fb : List Byte) : List Byte := frameBody fb ++ wordBytes (crc32 (frameBody fb))

/-- modify_df_bit(buffer, set_df): the frame and the status after the operation (R80). -/
def modifyDfBit (fb : List Byte) (setDf : BitVec 1) : List Byte × Status :=
  if fb.length < minLen then (fb, .frameTooSmall)
  else if frameHalf fb etypeOff ≠ etypeIpv4 then (fb, .notIpv4)
  else if newFlags setDf (frameHalf fb fragOff) = frameHalf fb fragOff then (fb, .ok)
  else if fb.length < ipOff + frameSpan fb then (fb, .spanOutOfFrame)
  else (frameWithFcs (frameWithChecksum fb (newFlags setDf (frameHalf fb fragOff))), .ok)

end Sys2Proof.Machine
end

