-- ==== Sys2Proof/Safety.lean ====
section
/-! DEFINITION. The terms that statements use: a filled buffer, the frame a state holds, regular and consistent frames
(spec/40_df_mutator.md R91), and the invariant of the block. -/

namespace Sys2Proof.Machine

/-- The caller has placed the whole frame: every byte of FB has been written (R143 item 1). -/
abbrev State.filled (s : State) : Prop := ∀ a, a < s.len → (s.fb.lookup a).isSome = true

/-- FB is the byte sequence `bs` and LEN its length (R8, R20, R21). -/
abbrev State.holds (s : State) (bs : List Byte) : Prop :=
  s.len = bs.length ∧ ∀ a, a < bs.length → s.fb.lookup a = bs[a]?

/-- The byte of FB at an offset, in a state where it has been written. -/
def State.peek (s : State) (a : Nat) : Byte := (s.fb.lookup a).getD 0#8

/-- The 16-bit field of FB at an offset, network byte order (R41). -/
def State.peekHalf (s : State) (a : Nat) : Half := s.peek a ++ s.peek (a + 1)

/-- The length of the checksum span of the frame in FB, 4 × IHL (R68). -/
def State.peekSpan (s : State) : Nat := 4 * (ihlOf (s.peek ipOff)).toNat

/-- Does the frame in FB need a change: the DF bit differs from the command (R85, R120)? -/
abbrev State.needsChange (s : State) (i : Instr) : Prop := dfBit (s.peekHalf fragOff) ≠ i.commandBit

/-- The frame passes the two validations, S1 and S2 (R83, R84). -/
abbrev State.passesChecks (s : State) : Prop := minLen ≤ s.len ∧ s.peekHalf etypeOff = etypeIpv4

/-- A regular frame (R91). -/
abbrev regularFrame (bs : List Byte) : Prop :=
  minLen ≤ bs.length ∧ frameHalf bs etypeOff = etypeIpv4 ∧ 5 ≤ frameIhl bs ∧ ipOff + frameSpan bs ≤ fcsOff bs.length

/-- A consistent frame: regular, its checksum the one R88 computes for it and its FCS the one R89 computes (R91). -/
abbrev consistentFrame (bs : List Byte) : Prop :=
  regularFrame bs ∧ frameHalf bs csumOff = csum16 (frameHeader (frameSetHalf bs csumOff 0x0000#16)) ∧
    frameFcs bs = wordBytes (crc32 (frameBody bs))

/-- W(s), the sum of the words of a sequence as a natural number; an odd trailing byte counts as byte × 256 (R102,
R106). -/
def wordSum : List Byte → Nat
  | [] => 0
  | [b] => b.toNat * 256
  | hi :: lo :: rest => hi.toNat * 256 + lo.toNat + wordSum rest

/-- fold(x): 0 for 0, otherwise the number in 1..0xFFFF congruent to x modulo 0xFFFF (R106 law 1). -/
def endAround (x : Nat) : Nat := if x = 0 then 0 else (x - 1) % 65535 + 1

/-- Has the sequencer passed the length check (S1)? -/
def Phase.pastLenCheck : Phase → Bool
  | .idle | .checkLen => false
  | _ => true

/-- Has the sequencer loaded OLD and NEW (S3)? -/
def Phase.pastFlags : Phase → Bool
  | .idle | .checkLen | .checkType | .flags => false
  | _ => true

/-- Has the sequencer passed the unchanged test (S4)? -/
def Phase.pastUnchangedTest : Phase → Bool
  | .idle | .checkLen | .checkType | .flags | .unchangedTest => false
  | _ => true

/-- Has the sequencer passed the span check (S5)? -/
def Phase.pastSpanCheck : Phase → Bool
  | .idle | .checkLen | .checkType | .flags | .unchangedTest | .spanCheck => false
  | _ => true

/-- The invariant of the block: the memory keeps its canonical form; BUSY is 1 exactly outside IDLE (R24, R27); DONE
stands only while BUSY = 0 (R149); and what each test of R80 established still stands in the phases after it. -/
structure State.Inv (s : State) : Prop where
  memoryWf : s.fb.wf = true
  busyIff : s.busy = true ↔ s.phase ≠ .idle
  doneIdle : s.done = true → s.busy = false
  longEnough : s.phase.pastLenCheck = true → minLen ≤ s.len
  flagsLoaded : s.phase.pastFlags = true → s.new = newFlags s.setDf s.old
  changeNeeded : s.phase.pastUnchangedTest = true → s.new ≠ s.old
  spanFits : s.phase.pastSpanCheck = true → s.span = spanOf s.ihl ∧ ipOff + s.span.toNat ≤ s.len

/-- The states the block can come to: from reset, by its own steps, its sequencer's phases and the moves from outside
(R32, R132, R140). -/
inductive Reachable : State → Prop where
  | reset : Reachable State.reset
  | step {s t : State} : Reachable s → step s = .next t → Reachable t
  | tick {s t : State} : Reachable s → tick s = .next t → Reachable t
  | move {s t : State} (m : CallerMove) : Reachable s → callerMove m s = .next t → Reachable t

end Sys2Proof.Machine
end

