-- ==== Sys2Proof/Certificates/Slice0/Obligations.lean ====
section
/-! DEFINITION. The statements about DFMUT, for the provers. -/

open Sys2Proof Sys2Proof.Machine

/-! ## Encoding and the step -/

/-- Every command decodes from its own word, whatever follows it, and each of the two values of the command bit names a
command (R60, R61, R62). The second clause, that whatever decodes is the command's own byte, is THE MODEL'S CHOICE: the spec
gives the command one bit and no byte, and the model lays that bit out as bit 0 of a byte whose other bits are zero, and
rejects any other byte (log 17). -/
def Obligations.CommandWordsRoundTrip : Prop :=
  (∀ (i : Instr) (rest : List Byte), i.wf = true → decode (encode i ++ rest) = .ok (i, rest)) ∧
  (∀ (bytes rest : List Byte) (i : Instr), decode bytes = .ok (i, rest) → bytes = encode i ++ rest) ∧
  (∀ d : BitVec 1, (decodeCommand d).commandBit = d)

/-- The words of the command map: 0 is MDF.CLR, 1 is MDF.SET (R61). That a byte of another value is no command word is the
model's choice (log 17). -/
def Obligations.CommandMapWords : Prop :=
  decodeTableWord 8 0b0 = some .mdfClr ∧ decodeTableWord 8 0b1 = some .mdfSet ∧
  decode [0b00000000#8] = .ok (.mdfClr, []) ∧ decode [0b00000001#8] = .ok (.mdfSet, []) ∧
  decode [0b00000010#8] = .error .widerThanOneBit ∧ decode [] = .error .noCommandWord

/-- A step at CHECK_LEN, where START leaves the block, is exec of the command in SET_DF; START reaches such a state
without touching SET_DF; in IDLE a step changes nothing (R12, R24, R27, R60; log 9). -/
def Obligations.StepRunsDecodedCommand : Prop :=
  (∀ (s : State) (i : Instr), s.phase = .checkLen → decode s.commandBytes = .ok (i, []) → i.wf = true →
    step s = exec i s) ∧
  (∀ s t : State, callerStart s = .next t →
    t.setDf = s.setDf ∧ decode t.commandBytes = .ok (s.command, []) ∧ step t = exec s.command t) ∧
  (∀ s : State, s.phase = .idle → step s = .next s)

/-- A word of the opcode table placed where the step takes its command is the command the step runs (log 9, 17). -/
def Obligations.FetchWordRunsTableWord : Prop :=
  ∀ (s : State) (nbits w : Nat) (i : Instr), decodeTableWord nbits w = some i →
    step (s.withFetchWord nbits w) = exec i (s.withFetchWord nbits w)

/-! ## Reset -/

/-- Reset puts the block in the idle state (R30, R140), whether it is the first reset or arrives later. -/
def Obligations.ResetLeavesBlockIdle : Prop :=
  (State.reset.busy = false ∧ State.reset.phase = .idle) ∧
  ∀ s : State, (callerReset s).busy = false ∧ (callerReset s).phase = .idle ∧
    callerReadStatus (callerReset s) = .refused .statusNotDefined

/-- The values the model chose for what the spec leaves unspecified after reset: THE MODEL'S CHOICE, not the spec's (log
1 to 6): no byte of FB has a value and every register is zero. -/
def Obligations.ResetValuesChosen : Prop :=
  (∀ a, State.reset.fb.lookup a = none) ∧ State.reset.len = 0 ∧ State.reset.setDf = 0#1 ∧ State.reset.status = 0#2 ∧
  State.reset.done = false ∧ State.reset.old = 0#16 ∧ State.reset.new = 0#16 ∧ State.reset.ihl = 0#4 ∧
  State.reset.span = 0#6 ∧ State.reset.acc = 0#32 ∧ State.reset.ck = 0#16 ∧ State.reset.crcreg = 0#32

/-- Reset while an operation runs: every byte but those the operation may write is as it was (R142).
That a buffer shorter than 38 bytes loses none is the model's reading (log 13). -/
def Obligations.ResetDuringOperationKeepsOtherBytes : Prop :=
  ∀ (s : State) (a : Nat), s.phase ≠ .idle →
    (s.len < minLen ∨
      (a ≠ fragOff ∧ a ≠ fragOff + 1 ∧ a ≠ csumOff ∧ a ≠ csumOff + 1 ∧ (a < fcsOff s.len ∨ s.len ≤ a))) →
    (callerReset s).fb.lookup a = s.fb.lookup a

/-! ## Where an operation ends: the exits of R80 -/

/-- Every LEN from 0 to 37 ends with FRAME_TOO_SMALL, whatever the bytes, written or not (R83, R121). -/
def Obligations.ShortBufferFails : Prop :=
  ∀ (i : Instr) (s : State), s.len < 38 →
    exec i s = .next { s with status := 1#2, busy := false, done := true, phase := .idle }

/-- An EtherType other than 0x0800 ends with NOT_IPV4 (R84, R122). -/
def Obligations.ForeignEtherTypeFails : Prop :=
  ∀ (i : Instr) (s : State) (hi lo : Byte), 38 ≤ s.len → s.fb.lookup 12 = some hi → s.fb.lookup 13 = some lo →
    (hi ++ lo : Half) ≠ 0x0800#16 →
    exec i s = .next { s with status := 2#2, busy := false, done := true, phase := .idle }

/-- A frame whose DF bit already has the requested value, under MDF.CLR or MDF.SET: OK, and no byte and no register is
written but OLD, NEW and STATUS (R80, R85, R86). -/
def Obligations.UnchangedFrameSucceeds : Prop :=
  ∀ (i : Instr) (s : State) (hi lo : Byte), 38 ≤ s.len →
    s.fb.lookup 12 = some 0x08#8 → s.fb.lookup 13 = some 0x00#8 →
    s.fb.lookup 20 = some hi → s.fb.lookup 21 = some lo → (hi ++ lo : Half).getLsbD 14 = (i.commandBit == 1#1) →
    exec i s = .next { s with old := hi ++ lo, new := hi ++ lo, status := 0#2, busy := false, done := true, phase := .idle }

/-- A frame that needs a change and whose span does not fit ends with SPAN_OUT_OF_FRAME, FB as it was; and only buffers of
38 to 73 bytes with an IHL of at least 7 can (R80, R87, R123). Two readings are THE MODEL'S: that the operation answers a
next state, where R87 and R123 have a model treat it as a fault of the frame (log 8), and that OLD, NEW, IHL and SPAN keep
what the steps before the exit wrote to them, where R127 calls the state after a failure the state before but for STATUS (log
11). -/
def Obligations.SpanOutOfFrameFails : Prop :=
  (∀ (i : Instr) (s : State) (hi lo b : Byte), 38 ≤ s.len →
    s.fb.lookup 12 = some 0x08#8 → s.fb.lookup 13 = some 0x00#8 → s.fb.lookup 14 = some b →
    s.fb.lookup 20 = some hi → s.fb.lookup 21 = some lo → (hi ++ lo : Half).getLsbD 14 ≠ (i.commandBit == 1#1) →
    s.len < 14 + 4 * (b.extractLsb' 0 4).toNat →
    exec i s = .next { s with
      old := hi ++ lo, new := (hi ++ lo : Half) ^^^ 0x4000#16
      ihl := b.extractLsb' 0 4, span := 4#6 * (b.extractLsb' 0 4).setWidth 6
      status := 3#2, busy := false, done := true, phase := .idle }) ∧
  (∀ (i : Instr) (s t : State), exec i s = .next t → t.status = 3#2 →
    38 ≤ s.len ∧ s.len ≤ 73 ∧ 7 ≤ (ihlOf (s.peek ipOff)).toNat)

/-- On a buffer the caller has filled, an operation ends with exactly one of the four codes, decided by the tests in their
fixed order: length, EtherType, unchanged, span; and OK means that DF is as asked (R120, R126). Both commands complete on every filled
buffer. -/
def Obligations.StatusDecidedInOrder : Prop :=
  ∀ (i : Instr) (s : State), s.filled →
    ∃ t, exec i s = .next t ∧ t.done = true ∧ t.busy = false ∧
      (t.status = 0#2 → dfBit (t.peekHalf 20) = i.commandBit) ∧
      t.status =
        if s.len < 38 then 1#2
        else if s.peekHalf 12 ≠ 0x0800#16 then 2#2
        else if dfBit (s.peekHalf 20) = i.commandBit then 0#2
        else if s.len < 14 + s.peekSpan then 3#2
        else 0#2

/-! ## The operation that changes the frame -/

/-- An operation that changes the frame, MDF.CLR or MDF.SET, in full: it answers a next state in which FB holds the frame with the new flags, the checksum recomputed over
them and the FCS recomputed over both; every datapath register holds what its step of R80 gave it; LEN, SET_DF and every
byte beyond the buffer are as they were (R80, R88, R89, R92). What ACC and CRCREG keep, the twice-folded sum (R100) and the
value before the final XOR (R110), is THE MODEL'S reading (log 11). `holds` asks that the whole frame is written, the last
four bytes too, as R143 asks of the caller. -/
def Obligations.ChangingOperationResult : Prop :=
  ∀ (i : Instr) (s : State) (bs : List Byte), s.holds bs → 38 ≤ bs.length → frameHalf bs 12 = 0x0800#16 →
    dfBit (frameHalf bs 20) ≠ i.commandBit → 14 + frameSpan bs ≤ bs.length →
    ∃ t new zeroed summed, exec i s = .next t ∧
      new = frameHalf bs 20 ^^^ 0x4000#16 ∧
      zeroed = frameSetHalf (frameSetHalf bs 20 new) 24 0x0000#16 ∧
      summed = frameSetHalf zeroed 24 (csum16 (frameHeader zeroed)) ∧
      t.holds (frameBody summed ++ wordBytes (crc32 (frameBody summed))) ∧
      (∀ a, s.len ≤ a → t.fb.lookup a = s.fb.lookup a) ∧
      t.old = frameHalf bs 20 ∧ t.new = new ∧ t.ihl = ihlOf (bs.getD 14 0#8) ∧ t.span.toNat = frameSpan bs ∧
      t.acc = csumAcc (frameHeader zeroed) ∧ t.ck = csum16 (frameHeader zeroed) ∧
      t.crcreg = crcRun 0xFFFFFFFF#32 (frameBody summed) ∧
      t.status = 0#2 ∧ t.busy = false ∧ t.done = true ∧ t.phase = .idle ∧
      t.len = s.len ∧ t.setDf = s.setDf ∧ t.draws = s.draws

/-- The operation is a function of the frame and the command bit alone: on every buffer it does what `modifyDfBit` does on
the list of its bytes (R26, R80; conflict C11). -/
def Obligations.OperationIsPureFunctionOfFrame : Prop :=
  ∀ (i : Instr) (s : State) (bs : List Byte), s.holds bs →
    ∃ t, exec i s = .next t ∧ t.holds (modifyDfBit bs i.commandBit).1 ∧ t.status = (modifyDfBit bs i.commandBit).2.code

/-- A regular frame whose DF bit differs from the command comes out right: OK; DF as asked and every other flag bit as
before; the header sums to zero under CSUM16; the FCS is the CRC-32 of the bytes before it (R91 item 2). -/
def Obligations.RegularFrameIsRepaired : Prop :=
  ∀ (i : Instr) (s : State) (bs : List Byte), s.holds bs → regularFrame bs → dfBit (frameHalf bs fragOff) ≠ i.commandBit →
    ∃ t bs', exec i s = .next t ∧ t.holds bs' ∧ t.status = Status.ok.code ∧
      dfBit (frameHalf bs' fragOff) = i.commandBit ∧
      (∀ k, k ≠ 14 → (frameHalf bs' fragOff).getLsbD k = (frameHalf bs fragOff).getLsbD k) ∧
      csum16 (frameHeader bs') = 0x0000#16 ∧ frameSpan bs' = frameSpan bs ∧
      t.memRead (fcsOff t.len) 4 = .next (crc32 (frameBody bs'))

/-- After every changing operation, on a regular frame or not, the last four bytes read most significant first are the
CRC-32 of all the bytes before them (R114, R115, R116). -/
def Obligations.StoredFcsMatches : Prop :=
  ∀ (i : Instr) (s t : State), exec i s = .next t → t.status = 0#2 → s.needsChange i →
    ∃ body, t.readSpan 0 (t.len - 4) = .next body ∧ t.memRead (t.len - 4) 4 = .next (crc32 body)

/-- The old checksum and the old FCS have no influence on the frame that a changing operation leaves, where the span does
not reach the FCS (R88, R89). -/
def Obligations.OldChecksumAndFcsHaveNoInfluence : Prop :=
  ∀ (i : Instr) (s s' : State) (bs bs' : List Byte), s.holds bs → s'.holds bs' → bs.length = bs'.length →
    (∀ a, a < fcsOff bs.length → a ≠ csumOff → a ≠ csumOff + 1 → bs[a]? = bs'[a]?) →
    minLen ≤ bs.length → frameHalf bs etypeOff = etypeIpv4 → dfBit (frameHalf bs fragOff) ≠ i.commandBit →
    ipOff + frameSpan bs ≤ fcsOff bs.length →
    ∃ t t' out, exec i s = .next t ∧ exec i s' = .next t' ∧ t.holds out ∧ t'.holds out

/-- With IHL = 0 the span is empty and the checksum written is FF FF (R90 item 2). -/
def Obligations.EmptySpanWritesAllOnes : Prop :=
  ∀ (i : Instr) (s : State) (bs : List Byte), s.holds bs → minLen ≤ bs.length → frameHalf bs etypeOff = etypeIpv4 →
    dfBit (frameHalf bs fragOff) ≠ i.commandBit → frameIhl bs = 0 →
    ∃ t, exec i s = .next t ∧ t.status = 0#2 ∧ t.fb.lookup 24 = some 0xFF#8 ∧ t.fb.lookup 25 = some 0xFF#8

/-- On a consistent frame setting DF lowers the checksum by 0x4000 and clearing it raises it by 0x4000, in one's-complement
arithmetic (R91 item 7). -/
def Obligations.ChecksumMovesByDfWeight : Prop :=
  ∀ (s : State) (bs : List Byte), s.holds bs → consistentFrame bs →
    (dfBit (frameHalf bs fragOff) = 0#1 →
      ∃ t, exec .mdfSet s = .next t ∧
        ((t.peekHalf csumOff).toNat + 0x4000) % 65535 = (frameHalf bs csumOff).toNat % 65535) ∧
    (dfBit (frameHalf bs fragOff) = 1#1 →
      ∃ t, exec .mdfClr s = .next t ∧
        (t.peekHalf csumOff).toNat % 65535 = ((frameHalf bs csumOff).toNat + 0x4000) % 65535)

/-- A command that changes a regular frame, then the other command: the flags field is the original one, and the whole
frame is the original one exactly when the original frame was consistent (R91 item 4; conflict C8). -/
def Obligations.RoundTripRestoresConsistentFrames : Prop :=
  ∀ (i j : Instr) (s : State) (bs : List Byte), i ≠ j → s.holds bs → regularFrame bs →
    dfBit (frameHalf bs fragOff) ≠ i.commandBit →
    ∃ t u bs'', exec i s = .next t ∧ exec j t = .next u ∧ u.holds bs'' ∧ u.status = 0#2 ∧
      frameHalf bs'' fragOff = frameHalf bs fragOff ∧ (bs'' = bs ↔ consistentFrame bs)

/-- The same command a second time: the same status, and no change (R91 item 5). -/
def Obligations.SecondRunChangesNothing : Prop :=
  ∀ (i : Instr) (s t : State), exec i s = .next t →
    ∃ u, exec i t = .next u ∧ u.fb = t.fb ∧ u.status = t.status ∧ u.len = t.len ∧ u.setDf = t.setDf

/-! ## Frame, bounds and what an operation depends on -/

/-- What an operation leaves unchanged: LEN, SET_DF, every byte but those at 20, 24, 25 and the last four, and every bit of
byte 20 but bit 6 (R53, R91 item 6, R92). -/
def Obligations.OperationFrame : Prop :=
  ∀ (i : Instr) (s t : State), exec i s = .next t →
    t.len = s.len ∧ t.setDf = s.setDf ∧ t.draws = s.draws ∧ t.busy = false ∧ t.done = true ∧ t.phase = .idle ∧
    (∀ a, a ≠ fragOff → a ≠ csumOff → a ≠ csumOff + 1 → (a < fcsOff s.len ∨ s.len ≤ a) →
      t.fb.lookup a = s.fb.lookup a) ∧
    (∀ b, s.fb.lookup fragOff = some b →
      ∃ b', t.fb.lookup fragOff = some b' ∧ b' &&& 0xBF#8 = b &&& 0xBF#8)

/-- The exits store nothing: after a failure, or where DF already had its value, FB is as it was; so are ACC, CK and
CRCREG; IHL and SPAN too unless the span check was reached, and OLD and NEW unless the flags were read (R53, R127). -/
def Obligations.ExitsStoreNothing : Prop :=
  ∀ (i : Instr) (s t : State), exec i s = .next t → (t.status ≠ 0#2 ∨ ¬ s.needsChange i) →
    t.fb = s.fb ∧ t.acc = s.acc ∧ t.ck = s.ck ∧ t.crcreg = s.crcreg ∧
    (t.status ≠ 3#2 → t.ihl = s.ihl ∧ t.span = s.span) ∧
    (t.status = 1#2 ∨ t.status = 2#2 → t.old = s.old ∧ t.new = s.new)

/-- No operation leaves the buffer: every access lies inside it, in every state (R48). -/
def Obligations.OperationNeverLeavesBuffer : Prop :=
  ∀ (i : Instr) (s : State) (r : Fault), exec i s ≠ .fault r

/-- The one thing an operation is refused for is a byte of the buffer that nothing has written: THE MODEL'S FORM of the
spec's 'refuse the read' (R30; log 1). -/
def Obligations.OperationRefusedOnlyForUnwrittenByte : Prop :=
  ∀ (i : Instr) (s : State) (r : Refusal), exec i s = .refused r →
    ∃ a, a < s.len ∧ s.fb.lookup a = none ∧ r = .unwrittenByte a

/-- The result of an operation is a function of (FB, LEN, SET_DF) alone: no other register has any influence (R26). -/
def Obligations.ResultDependsOnInputsOnly : Prop :=
  ∀ (i : Instr) (s s' t : State), s.fb = s'.fb → s.len = s'.len → exec i s = .next t →
    ∃ t', exec i s' = .next t' ∧ t'.fb = t.fb ∧ t'.len = t.len ∧ t'.status = t.status

/-! ## The sequencer, the invariant, termination -/

/-- The sequencer, phase by phase from CHECK_LEN, does exactly what the one-transition operation does (R12, R27, R80). -/
def Obligations.SequencerRefinesOperation : Prop :=
  ∀ s : State, s.phase = .checkLen → resume s = exec s.command s

/-- PHASE walks the fixed order and leaves it only at the four exits of R80 and at the end, for IDLE (R27). -/
def Obligations.PhaseWalksInOrder : Prop :=
  ∀ s t : State, tick s = .next t →
    (s.phase, t.phase) ∈
      [(Phase.idle, Phase.idle), (.checkLen, .checkType), (.checkLen, .idle), (.checkType, .flags), (.checkType, .idle),
       (.flags, .unchangedTest), (.unchangedTest, .spanCheck), (.unchangedTest, .idle), (.spanCheck, .writeFlags),
       (.spanCheck, .idle), (.writeFlags, .zeroCsum), (.zeroCsum, .csum), (.csum, .writeCsum), (.writeCsum, .crc),
       (.crc, .writeFcs), (.writeFcs, .idle)]

/-- The invariant holds at reset. -/
def Obligations.InvariantAtReset : Prop := State.reset.Inv

/-- The invariant is kept by every step from every state that has it: the memory stays canonical, BUSY is 1 exactly outside
IDLE, and what the tests of R80 established stands (R24, R27, R48, R149). -/
def Obligations.InvariantKeptByStep : Prop :=
  ∀ s t : State, s.Inv → step s = .next t → t.Inv

/-- The invariant is kept by every phase of the sequencer, through the intermediate states of R29. -/
def Obligations.InvariantKeptByPhase : Prop :=
  ∀ s t : State, s.Inv → tick s = .next t → t.Inv

/-- The invariant is kept by every move from outside the block, reset among them (R32, R140, R142, R145). -/
def Obligations.InvariantKeptByCaller : Prop :=
  ∀ (m : CallerMove) (s t : State), s.Inv → callerMove m s = .next t → t.Inv

/-- In every state the block can come to, the caller's moves included, no step and no phase reaches outside the buffer (R48,
R54). -/
def Obligations.ReachableBlockNeverFaults : Prop :=
  ∀ (s : State) (r : Fault), Reachable s → step s ≠ .fault r ∧ tick s ≠ .fault r

/-- Every operation ends: from any state with the invariant and a filled buffer the sequencer comes to IDLE in at most
eleven phases (R27, R128, R151), and a step leaves the block idle. That one step finishes the operation from whatever phase
it stands in is THE MODEL'S reading: R12 makes an operation one transition and says nothing of a step from a middle phase
(log 10). -/
def Obligations.EveryOperationEnds : Prop :=
  ∀ s : State, s.Inv → s.filled →
    (∃ t, step s = .next t ∧ t.phase = .idle ∧ t.busy = false ∧ t.filled) ∧
    (∃ t, runPhases 11 s = .next t ∧ t.phase = .idle)

/-! ## The caller -/

/-- START is refused while an operation is in progress; otherwise BUSY is 1 and nothing the operation reads has changed
(R24, R145). That DONE is over at START is the model's holding of the event (log 6). -/
def Obligations.StartOnlyWhenIdle : Prop :=
  (∀ s : State, s.busy = true → callerStart s = .refused .startWhileBusy) ∧
  (∀ s : State, s.busy = false → callerStart s = .next { s with busy := true, done := false, phase := .checkLen })

/-- While BUSY = 1 the caller can touch neither FB nor LEN nor SET_DF (R32, R146, R147). -/
def Obligations.CallerKeptOutWhileBusy : Prop :=
  ∀ (s : State) (a : Nat) (b : Byte) (bs : List Byte) (n : Nat) (d : BitVec 1), s.busy = true →
    callerReadByte a s = .refused .bufferOwnedByBlock ∧ callerWriteByte a b s = .refused .bufferOwnedByBlock ∧
    callerPlaceFrame bs s = .refused .bufferOwnedByBlock ∧ callerWriteLen n s = .refused .inputsNotStable ∧
    callerWriteSetDf d s = .refused .inputsNotStable

/-- STATUS can be read after an operation has ended, and neither after the next START nor before any operation (R149).
The bit that says so is the model's (log 6). -/
def Obligations.StatusReadableOnlyAfterDone : Prop :=
  (∀ (i : Instr) (s t : State), exec i s = .next t → callerReadStatus t = .next t.status) ∧
  (∀ s t : State, callerStart s = .next t → callerReadStatus t = .refused .statusNotDefined) ∧
  (∀ s : State, s.busy = true → callerReadStatus s = .refused .statusNotDefined) ∧
  callerReadStatus State.reset = .refused .statusNotDefined

/-- A caller that places a frame of a length that MAX_LEN allows (R6), names a command and raises START in an idle block
finds, when the step is done, BUSY = 0, the length it gave, every byte of the frame that `modifyDfBit` gives, read by its own
accesses, and the status (R32, R50, R51, R143, R149). Every length is allowed, MAX_LEN being unbounded: THE MODEL'S CHOICE
(log 7). -/
def Obligations.CallerSeesPureFunction : Prop :=
  ∀ (s : State) (bs : List Byte) (d : BitVec 1), s.busy = false → Config.lenAllowed bs.length = true →
    ∃ s1 s2 s3 t, callerPlaceFrame bs s = .next s1 ∧ callerWriteSetDf d s1 = .next s2 ∧ callerStart s2 = .next s3 ∧
      step s3 = .next t ∧ t.busy = false ∧ callerReadBusy t = false ∧ callerReadLen t = bs.length ∧
      t.holds (modifyDfBit bs d).1 ∧
      (∀ (a : Nat) (h : a < (modifyDfBit bs d).1.length), callerReadByte a t = .next (modifyDfBit bs d).1[a]) ∧
      callerReadStatus t = .next (modifyDfBit bs d).2.code

/-! ## Memory and fields -/

/-- What MemWrite stores, MemRead gives back, for every width and every place inside the buffer, and no other byte moves
(R9, R40, R45). -/
def Obligations.MemReadAfterMemWrite : Prop :=
  ∀ (s : State) (a n : Nat) (v : BitVec (8 * n)), a + n ≤ s.len →
    ∃ t, s.memWrite a n v = .next t ∧ t.memRead a n = .next v ∧
      ∀ c, c < a ∨ a + n ≤ c → t.fb.lookup c = s.fb.lookup c

/-- NEW is OLD with DF forced: bit 14 is set_df, every other bit as it was; NEW = OLD exactly when DF already had its value,
and otherwise NEW = OLD ^ 0x4000; OLD is the field at 20 and 21, network byte order (R85). -/
def Obligations.NewFlagsForceDfOnly : Prop :=
  (∀ (d : BitVec 1) (f : Half),
    (newFlags d f).getLsbD 14 = (d == 1#1) ∧ (∀ k, k ≠ 14 → (newFlags d f).getLsbD k = f.getLsbD k) ∧
    (newFlags d f = f ↔ f.getLsbD 14 = (d == 1#1)) ∧ (f.getLsbD 14 ≠ (d == 1#1) → newFlags d f = f ^^^ 0x4000#16)) ∧
  (∀ (s : State) (d : BitVec 1) (hi lo : Byte), 21 < s.len → s.fb.lookup 20 = some hi → s.fb.lookup 21 = some lo →
    s.loadFlags d = .next { s with old := hi ++ lo, new := newFlags d (hi ++ lo) })

/-- IHL is the low nibble of byte 14 as it stands and SPAN is 4 × IHL: 0, 4, …, 60 (R68). -/
def Obligations.SpanIsFourTimesIhl : Prop :=
  ∀ (s : State) (b : Byte), 14 < s.len → s.fb.lookup 14 = some b →
    ∃ t, s.loadSpan = .next t ∧ t.ihl.toNat = b.toNat % 16 ∧ t.span.toNat = 4 * (b.toNat % 16) ∧ t.span.toNat ≤ 60 ∧
      t.fb = s.fb

/-- STATUS is 2 bits: the four codes, all used, none reserved (R63). -/
def Obligations.StatusCodes : Prop :=
  Status.ok.code = 0#2 ∧ Status.frameTooSmall.code = 1#2 ∧ Status.notIpv4.code = 2#2 ∧ Status.spanOutOfFrame.code = 3#2 ∧
  ∀ v : BitVec 2, ∃ c : Status, c.code = v

/-! ## CSUM16 -/

/-- Two folds bring any 32-bit ACC to 16 bits, a third changes nothing, and the second may be computed as ACC + (ACC >> 16)
truncated (R104). -/
def Obligations.TwoFoldsSuffice : Prop :=
  ∀ acc : Word, (csumFold acc).toNat ≤ 0x1FFFE ∧ (csumFold (csumFold acc)).toNat ≤ 0xFFFF ∧
    csumFold (csumFold (csumFold acc)) = csumFold (csumFold acc) ∧
    (csumFold (csumFold acc)).extractLsb' 0 16 = (csumFold acc + csumFold acc >>> 16).extractLsb' 0 16

/-- ACC is the sum of the words modulo 2^32; with at most 65,537 words nothing is lost, and with at most 60 bytes ACC is at
most 0x001DFFE2 (R103). -/
def Obligations.AccumulatorHoldsWordSum : Prop :=
  (∀ s : List Byte, (csumWords 0#32 s).toNat = wordSum s % 2 ^ 32) ∧
  (∀ s : List Byte, (s.length + 1) / 2 ≤ 65537 → (csumWords 0#32 s).toNat = wordSum s) ∧
  (∀ s : List Byte, s.length ≤ 60 → (csumWords 0#32 s).toNat ≤ 0x001DFFE2)

/-- The padded word of an odd trailing byte is byte × 256, so the odd sequence sums as the even one with a zero byte; the
block never has one, since every span is even (R102). -/
def Obligations.OddTrailingByteIsHighByte : Prop :=
  (∀ (s : List Byte) (b : Byte), s.length % 2 = 0 → csum16 (s ++ [b]) = csum16 (s ++ [b, 0x00#8])) ∧
  csum16 [0x01#8] = 0xFEFF#16 ∧ csum16 [0x12#8, 0x34#8, 0x56#8] = 0x97CB#16 ∧
  (∀ fb : List Byte, frameSpan fb % 2 = 0)

/-- CSUM16 is 0xFFFF less the one's-complement sum with end-around carry (R105, R106 law 1). -/
def Obligations.CsumIsOnesComplementSum : Prop :=
  ∀ s : List Byte, s.length ≤ 131074 → (csum16 s).toNat = 0xFFFF - endAround (wordSum s)

/-- CSUM16 is 0xFFFF exactly for an all-zero or empty sequence, and 0x0000 exactly when the words sum to a non-zero multiple
of 0xFFFF (R106 law 2). -/
def Obligations.CsumExtremes : Prop :=
  ∀ s : List Byte, s.length ≤ 131074 →
    (csum16 s = 0xFFFF#16 ↔ ∀ b ∈ s, b = 0x00#8) ∧
    (csum16 s = 0x0000#16 ↔ wordSum s ≠ 0 ∧ wordSum s % 65535 = 0)

/-- With the result stored high byte first in its zeroed field, the sequence sums to zero (R106 law 3). -/
def Obligations.StoredChecksumVerifies : Prop :=
  ∀ s : List Byte, s.length ≤ 131074 → s.length % 2 = 0 → 12 ≤ s.length → s[10]? = some 0x00#8 → s[11]? = some 0x00#8 →
    (∃ b ∈ s, b ≠ 0x00#8) → csum16 (frameSetHalf s 10 (csum16 s)) = 0x0000#16

/-- Summing whole words with their bytes swapped gives the swapped result (R106 law 4). -/
def Obligations.CsumByteOrderIndependent : Prop :=
  ∀ ws : List (Byte × Byte), ws.length ≤ 65537 →
    csum16 (ws.flatMap fun w => [w.2, w.1]) =
      (csum16 (ws.flatMap fun w => [w.1, w.2])).extractLsb' 0 8 ++ (csum16 (ws.flatMap fun w => [w.1, w.2])).extractLsb' 8 8

/-- The result does not depend on the order of the words (R106 law 5). -/
def Obligations.CsumWordOrderIndependent : Prop :=
  ∀ ws ws' : List (Byte × Byte), ws.Perm ws' →
    csum16 (ws.flatMap fun w => [w.1, w.2]) = csum16 (ws'.flatMap fun w => [w.1, w.2])

/-- Changing one word changes the result by the opposite amount, in one's-complement arithmetic (R106 law 6). -/
def Obligations.CsumWordChange : Prop :=
  ∀ (pre post : List Byte) (a b c d : Byte), pre.length % 2 = 0 → pre.length + 2 + post.length ≤ 131074 →
    ((csum16 (pre ++ a :: b :: post)).toNat + (a ++ b : Half).toNat) % 65535 =
      ((csum16 (pre ++ c :: d :: post)).toNat + (c ++ d : Half).toNat) % 65535

/-! ## CRC32 -/

/-- The byte-at-a-time form with the table T is the bitwise definition, with the entries the spec prints (R113). -/
def Obligations.CrcTableFormAgrees : Prop :=
  (∀ i : Byte, crcTable i = crcBits 8 (i.setWidth 32)) ∧
  (∀ (r : Word) (b : Byte), (r >>> 8) ^^^ crcTable ((r ^^^ b.setWidth 32) &&& 0xFF#32 |>.setWidth 8) = crcByte r b) ∧
  (∀ s : List Byte, crc32 s = s.foldl crcByteByTable 0xFFFFFFFF#32 ^^^ 0xFFFFFFFF#32) ∧
  crcTable 0#8 = 0x00000000#32 ∧ crcTable 1#8 = 0x77073096#32 ∧ crcTable 2#8 = 0xEE0E612C#32 ∧
  crcTable 128#8 = 0xEDB88320#32 ∧ crcTable 255#8 = 0x2D02EF8D#32

/-- CRC32 is affine over XOR for sequences of equal length (R118 law 2). -/
def Obligations.CrcIsAffine : Prop :=
  ∀ a b : List Byte, a.length = b.length →
    crc32 a ^^^ crc32 b = crc32 (List.zipWith (· ^^^ ·) a b) ^^^ crc32 (List.replicate a.length 0x00#8)

/-- Changing any one bit of a sequence changes its CRC-32 (R118 law 3). -/
def Obligations.CrcSeesEverySingleBit : Prop :=
  ∀ (pre post : List Byte) (b : Byte) (k : Nat), k < 8 →
    crc32 (pre ++ (b ^^^ 1#8 <<< k) :: post) ≠ crc32 (pre ++ b :: post)

/-! ## The accesses the caller may make, and the faults the invariant rules out -/

/-- What the table of R32 allows takes effect and moves nothing else. LEN, SET_DF and BUSY are read at any time. While BUSY =
0 the caller writes a byte of FB, LEN up to MAX_LEN (R6), SET_DF, or a whole frame with its length, and no other byte and no
other register moves; it reads the byte that FB holds at an offset below LEN; after DONE it reads STATUS (R32, R40, R50,
R143, R149). THE MODEL'S: bytes at and beyond LEN may be written and are kept (log 12), MAX_LEN is unbounded (log 7), a read
at or beyond LEN faults, for that byte does not exist (R40), a byte nothing has written is refused (log 1), and DONE is held
as a bit (log 6). -/
def Obligations.CallerAccessesTakeEffect : Prop :=
  (∀ s : State, callerReadLen s = s.len ∧ callerReadSetDf s = s.setDf ∧ callerReadBusy s = s.busy) ∧
  (∀ s : State, s.busy = false →
    (∀ (a : Nat) (b : Byte), ∃ t, callerWriteByte a b s = .next t ∧ t = { s with fb := t.fb } ∧
      t.fb.lookup a = some b ∧ ∀ c, c ≠ a → t.fb.lookup c = s.fb.lookup c) ∧
    (∀ n : Nat, Config.lenAllowed n = true → callerWriteLen n s = .next { s with len := n }) ∧
    (∀ d : BitVec 1, callerWriteSetDf d s = .next { s with setDf := d }) ∧
    (∀ bs : List Byte, Config.lenAllowed bs.length = true →
      ∃ t, callerPlaceFrame bs s = .next t ∧ t = { s with fb := t.fb, len := bs.length } ∧ t.holds bs ∧
        ∀ c, bs.length ≤ c → t.fb.lookup c = s.fb.lookup c) ∧
    (∀ (a : Nat) (b : Byte), a < s.len → s.fb.lookup a = some b → callerReadByte a s = .next b) ∧
    (∀ a : Nat, a < s.len → s.fb.lookup a = none → callerReadByte a s = .refused (.unwrittenByte a)) ∧
    (∀ a : Nat, s.len ≤ a → callerReadByte a s = .fault (.outsideBuffer a)) ∧
    (s.done = true → callerReadStatus s = .next s.status))

/-- The invariant rules every fault out: from any state that has it, reachable or not and in whatever phase, no step and no
phase of the sequencer reaches a byte outside the buffer (R48). -/
def Obligations.InvariantRulesOutFaults : Prop :=
  ∀ (s : State) (r : Fault), s.Inv → step s ≠ .fault r ∧ tick s ≠ .fault r
end

