-- ==== Sys2Proof/Laws/State.lean ====
section
/-! SUPPORT. One lemma per field per update of State, so that no proof unfolds a record update. -/

namespace Sys2Proof.Machine

@[simp] theorem State.withFb_fb (s : State) (m : Memory) : (s.withFb m).fb = m := rfl
@[simp] theorem State.withFb_len (s : State) (m : Memory) : (s.withFb m).len = s.len := rfl
@[simp] theorem State.withFb_setDf (s : State) (m : Memory) : (s.withFb m).setDf = s.setDf := rfl
@[simp] theorem State.withFb_status (s : State) (m : Memory) : (s.withFb m).status = s.status := rfl
@[simp] theorem State.withFb_busy (s : State) (m : Memory) : (s.withFb m).busy = s.busy := rfl
@[simp] theorem State.withFb_done (s : State) (m : Memory) : (s.withFb m).done = s.done := rfl
@[simp] theorem State.withFb_phase (s : State) (m : Memory) : (s.withFb m).phase = s.phase := rfl
@[simp] theorem State.withFb_old (s : State) (m : Memory) : (s.withFb m).old = s.old := rfl
@[simp] theorem State.withFb_new (s : State) (m : Memory) : (s.withFb m).new = s.new := rfl
@[simp] theorem State.withFb_ihl (s : State) (m : Memory) : (s.withFb m).ihl = s.ihl := rfl
@[simp] theorem State.withFb_span (s : State) (m : Memory) : (s.withFb m).span = s.span := rfl
@[simp] theorem State.withFb_acc (s : State) (m : Memory) : (s.withFb m).acc = s.acc := rfl
@[simp] theorem State.withFb_ck (s : State) (m : Memory) : (s.withFb m).ck = s.ck := rfl
@[simp] theorem State.withFb_crcreg (s : State) (m : Memory) : (s.withFb m).crcreg = s.crcreg := rfl
@[simp] theorem State.withFb_draws (s : State) (m : Memory) : (s.withFb m).draws = s.draws := rfl

@[simp] theorem State.withPhase_fb (s : State) (p : Phase) : (s.withPhase p).fb = s.fb := rfl
@[simp] theorem State.withPhase_len (s : State) (p : Phase) : (s.withPhase p).len = s.len := rfl
@[simp] theorem State.withPhase_setDf (s : State) (p : Phase) : (s.withPhase p).setDf = s.setDf := rfl
@[simp] theorem State.withPhase_status (s : State) (p : Phase) : (s.withPhase p).status = s.status := rfl
@[simp] theorem State.withPhase_busy (s : State) (p : Phase) : (s.withPhase p).busy = s.busy := rfl
@[simp] theorem State.withPhase_done (s : State) (p : Phase) : (s.withPhase p).done = s.done := rfl
@[simp] theorem State.withPhase_phase (s : State) (p : Phase) : (s.withPhase p).phase = p := rfl
@[simp] theorem State.withPhase_old (s : State) (p : Phase) : (s.withPhase p).old = s.old := rfl
@[simp] theorem State.withPhase_new (s : State) (p : Phase) : (s.withPhase p).new = s.new := rfl
@[simp] theorem State.withPhase_ihl (s : State) (p : Phase) : (s.withPhase p).ihl = s.ihl := rfl
@[simp] theorem State.withPhase_span (s : State) (p : Phase) : (s.withPhase p).span = s.span := rfl
@[simp] theorem State.withPhase_acc (s : State) (p : Phase) : (s.withPhase p).acc = s.acc := rfl
@[simp] theorem State.withPhase_ck (s : State) (p : Phase) : (s.withPhase p).ck = s.ck := rfl
@[simp] theorem State.withPhase_crcreg (s : State) (p : Phase) : (s.withPhase p).crcreg = s.crcreg := rfl
@[simp] theorem State.withPhase_draws (s : State) (p : Phase) : (s.withPhase p).draws = s.draws := rfl

@[simp] theorem State.withFlags_fb (s : State) (o n : Half) : (s.withFlags o n).fb = s.fb := rfl
@[simp] theorem State.withFlags_len (s : State) (o n : Half) : (s.withFlags o n).len = s.len := rfl
@[simp] theorem State.withFlags_setDf (s : State) (o n : Half) : (s.withFlags o n).setDf = s.setDf := rfl
@[simp] theorem State.withFlags_status (s : State) (o n : Half) : (s.withFlags o n).status = s.status := rfl
@[simp] theorem State.withFlags_busy (s : State) (o n : Half) : (s.withFlags o n).busy = s.busy := rfl
@[simp] theorem State.withFlags_done (s : State) (o n : Half) : (s.withFlags o n).done = s.done := rfl
@[simp] theorem State.withFlags_phase (s : State) (o n : Half) : (s.withFlags o n).phase = s.phase := rfl
@[simp] theorem State.withFlags_old (s : State) (o n : Half) : (s.withFlags o n).old = o := rfl
@[simp] theorem State.withFlags_new (s : State) (o n : Half) : (s.withFlags o n).new = n := rfl
@[simp] theorem State.withFlags_ihl (s : State) (o n : Half) : (s.withFlags o n).ihl = s.ihl := rfl
@[simp] theorem State.withFlags_span (s : State) (o n : Half) : (s.withFlags o n).span = s.span := rfl
@[simp] theorem State.withFlags_acc (s : State) (o n : Half) : (s.withFlags o n).acc = s.acc := rfl
@[simp] theorem State.withFlags_ck (s : State) (o n : Half) : (s.withFlags o n).ck = s.ck := rfl
@[simp] theorem State.withFlags_crcreg (s : State) (o n : Half) : (s.withFlags o n).crcreg = s.crcreg := rfl
@[simp] theorem State.withFlags_draws (s : State) (o n : Half) : (s.withFlags o n).draws = s.draws := rfl

@[simp] theorem State.withSpan_fb (s : State) (i : BitVec 4) (p : BitVec 6) : (s.withSpan i p).fb = s.fb := rfl
@[simp] theorem State.withSpan_len (s : State) (i : BitVec 4) (p : BitVec 6) : (s.withSpan i p).len = s.len := rfl
@[simp] theorem State.withSpan_setDf (s : State) (i : BitVec 4) (p : BitVec 6) : (s.withSpan i p).setDf = s.setDf := rfl
@[simp] theorem State.withSpan_status (s : State) (i : BitVec 4) (p : BitVec 6) : (s.withSpan i p).status = s.status := rfl
@[simp] theorem State.withSpan_busy (s : State) (i : BitVec 4) (p : BitVec 6) : (s.withSpan i p).busy = s.busy := rfl
@[simp] theorem State.withSpan_done (s : State) (i : BitVec 4) (p : BitVec 6) : (s.withSpan i p).done = s.done := rfl
@[simp] theorem State.withSpan_phase (s : State) (i : BitVec 4) (p : BitVec 6) : (s.withSpan i p).phase = s.phase := rfl
@[simp] theorem State.withSpan_old (s : State) (i : BitVec 4) (p : BitVec 6) : (s.withSpan i p).old = s.old := rfl
@[simp] theorem State.withSpan_new (s : State) (i : BitVec 4) (p : BitVec 6) : (s.withSpan i p).new = s.new := rfl
@[simp] theorem State.withSpan_ihl (s : State) (i : BitVec 4) (p : BitVec 6) : (s.withSpan i p).ihl = i := rfl
@[simp] theorem State.withSpan_span (s : State) (i : BitVec 4) (p : BitVec 6) : (s.withSpan i p).span = p := rfl
@[simp] theorem State.withSpan_acc (s : State) (i : BitVec 4) (p : BitVec 6) : (s.withSpan i p).acc = s.acc := rfl
@[simp] theorem State.withSpan_ck (s : State) (i : BitVec 4) (p : BitVec 6) : (s.withSpan i p).ck = s.ck := rfl
@[simp] theorem State.withSpan_crcreg (s : State) (i : BitVec 4) (p : BitVec 6) : (s.withSpan i p).crcreg = s.crcreg := rfl
@[simp] theorem State.withSpan_draws (s : State) (i : BitVec 4) (p : BitVec 6) : (s.withSpan i p).draws = s.draws := rfl

@[simp] theorem State.withCsum_fb (s : State) (a : Word) (c : Half) : (s.withCsum a c).fb = s.fb := rfl
@[simp] theorem State.withCsum_len (s : State) (a : Word) (c : Half) : (s.withCsum a c).len = s.len := rfl
@[simp] theorem State.withCsum_setDf (s : State) (a : Word) (c : Half) : (s.withCsum a c).setDf = s.setDf := rfl
@[simp] theorem State.withCsum_status (s : State) (a : Word) (c : Half) : (s.withCsum a c).status = s.status := rfl
@[simp] theorem State.withCsum_busy (s : State) (a : Word) (c : Half) : (s.withCsum a c).busy = s.busy := rfl
@[simp] theorem State.withCsum_done (s : State) (a : Word) (c : Half) : (s.withCsum a c).done = s.done := rfl
@[simp] theorem State.withCsum_phase (s : State) (a : Word) (c : Half) : (s.withCsum a c).phase = s.phase := rfl
@[simp] theorem State.withCsum_old (s : State) (a : Word) (c : Half) : (s.withCsum a c).old = s.old := rfl
@[simp] theorem State.withCsum_new (s : State) (a : Word) (c : Half) : (s.withCsum a c).new = s.new := rfl
@[simp] theorem State.withCsum_ihl (s : State) (a : Word) (c : Half) : (s.withCsum a c).ihl = s.ihl := rfl
@[simp] theorem State.withCsum_span (s : State) (a : Word) (c : Half) : (s.withCsum a c).span = s.span := rfl
@[simp] theorem State.withCsum_acc (s : State) (a : Word) (c : Half) : (s.withCsum a c).acc = a := rfl
@[simp] theorem State.withCsum_ck (s : State) (a : Word) (c : Half) : (s.withCsum a c).ck = c := rfl
@[simp] theorem State.withCsum_crcreg (s : State) (a : Word) (c : Half) : (s.withCsum a c).crcreg = s.crcreg := rfl
@[simp] theorem State.withCsum_draws (s : State) (a : Word) (c : Half) : (s.withCsum a c).draws = s.draws := rfl

@[simp] theorem State.withCrcreg_fb (s : State) (r : Word) : (s.withCrcreg r).fb = s.fb := rfl
@[simp] theorem State.withCrcreg_len (s : State) (r : Word) : (s.withCrcreg r).len = s.len := rfl
@[simp] theorem State.withCrcreg_setDf (s : State) (r : Word) : (s.withCrcreg r).setDf = s.setDf := rfl
@[simp] theorem State.withCrcreg_status (s : State) (r : Word) : (s.withCrcreg r).status = s.status := rfl
@[simp] theorem State.withCrcreg_busy (s : State) (r : Word) : (s.withCrcreg r).busy = s.busy := rfl
@[simp] theorem State.withCrcreg_done (s : State) (r : Word) : (s.withCrcreg r).done = s.done := rfl
@[simp] theorem State.withCrcreg_phase (s : State) (r : Word) : (s.withCrcreg r).phase = s.phase := rfl
@[simp] theorem State.withCrcreg_old (s : State) (r : Word) : (s.withCrcreg r).old = s.old := rfl
@[simp] theorem State.withCrcreg_new (s : State) (r : Word) : (s.withCrcreg r).new = s.new := rfl
@[simp] theorem State.withCrcreg_ihl (s : State) (r : Word) : (s.withCrcreg r).ihl = s.ihl := rfl
@[simp] theorem State.withCrcreg_span (s : State) (r : Word) : (s.withCrcreg r).span = s.span := rfl
@[simp] theorem State.withCrcreg_acc (s : State) (r : Word) : (s.withCrcreg r).acc = s.acc := rfl
@[simp] theorem State.withCrcreg_ck (s : State) (r : Word) : (s.withCrcreg r).ck = s.ck := rfl
@[simp] theorem State.withCrcreg_crcreg (s : State) (r : Word) : (s.withCrcreg r).crcreg = r := rfl
@[simp] theorem State.withCrcreg_draws (s : State) (r : Word) : (s.withCrcreg r).draws = s.draws := rfl

@[simp] theorem State.withLen_fb (s : State) (n : Nat) : (s.withLen n).fb = s.fb := rfl
@[simp] theorem State.withLen_len (s : State) (n : Nat) : (s.withLen n).len = n := rfl
@[simp] theorem State.withLen_setDf (s : State) (n : Nat) : (s.withLen n).setDf = s.setDf := rfl
@[simp] theorem State.withLen_status (s : State) (n : Nat) : (s.withLen n).status = s.status := rfl
@[simp] theorem State.withLen_busy (s : State) (n : Nat) : (s.withLen n).busy = s.busy := rfl
@[simp] theorem State.withLen_done (s : State) (n : Nat) : (s.withLen n).done = s.done := rfl
@[simp] theorem State.withLen_phase (s : State) (n : Nat) : (s.withLen n).phase = s.phase := rfl
@[simp] theorem State.withLen_old (s : State) (n : Nat) : (s.withLen n).old = s.old := rfl
@[simp] theorem State.withLen_new (s : State) (n : Nat) : (s.withLen n).new = s.new := rfl
@[simp] theorem State.withLen_ihl (s : State) (n : Nat) : (s.withLen n).ihl = s.ihl := rfl
@[simp] theorem State.withLen_span (s : State) (n : Nat) : (s.withLen n).span = s.span := rfl
@[simp] theorem State.withLen_acc (s : State) (n : Nat) : (s.withLen n).acc = s.acc := rfl
@[simp] theorem State.withLen_ck (s : State) (n : Nat) : (s.withLen n).ck = s.ck := rfl
@[simp] theorem State.withLen_crcreg (s : State) (n : Nat) : (s.withLen n).crcreg = s.crcreg := rfl
@[simp] theorem State.withLen_draws (s : State) (n : Nat) : (s.withLen n).draws = s.draws := rfl

@[simp] theorem State.withSetDf_fb (s : State) (d : BitVec 1) : (s.withSetDf d).fb = s.fb := rfl
@[simp] theorem State.withSetDf_len (s : State) (d : BitVec 1) : (s.withSetDf d).len = s.len := rfl
@[simp] theorem State.withSetDf_setDf (s : State) (d : BitVec 1) : (s.withSetDf d).setDf = d := rfl
@[simp] theorem State.withSetDf_status (s : State) (d : BitVec 1) : (s.withSetDf d).status = s.status := rfl
@[simp] theorem State.withSetDf_busy (s : State) (d : BitVec 1) : (s.withSetDf d).busy = s.busy := rfl
@[simp] theorem State.withSetDf_done (s : State) (d : BitVec 1) : (s.withSetDf d).done = s.done := rfl
@[simp] theorem State.withSetDf_phase (s : State) (d : BitVec 1) : (s.withSetDf d).phase = s.phase := rfl
@[simp] theorem State.withSetDf_old (s : State) (d : BitVec 1) : (s.withSetDf d).old = s.old := rfl
@[simp] theorem State.withSetDf_new (s : State) (d : BitVec 1) : (s.withSetDf d).new = s.new := rfl
@[simp] theorem State.withSetDf_ihl (s : State) (d : BitVec 1) : (s.withSetDf d).ihl = s.ihl := rfl
@[simp] theorem State.withSetDf_span (s : State) (d : BitVec 1) : (s.withSetDf d).span = s.span := rfl
@[simp] theorem State.withSetDf_acc (s : State) (d : BitVec 1) : (s.withSetDf d).acc = s.acc := rfl
@[simp] theorem State.withSetDf_ck (s : State) (d : BitVec 1) : (s.withSetDf d).ck = s.ck := rfl
@[simp] theorem State.withSetDf_crcreg (s : State) (d : BitVec 1) : (s.withSetDf d).crcreg = s.crcreg := rfl
@[simp] theorem State.withSetDf_draws (s : State) (d : BitVec 1) : (s.withSetDf d).draws = s.draws := rfl

@[simp] theorem State.started_fb (s : State) : s.started.fb = s.fb := rfl
@[simp] theorem State.started_len (s : State) : s.started.len = s.len := rfl
@[simp] theorem State.started_setDf (s : State) : s.started.setDf = s.setDf := rfl
@[simp] theorem State.started_status (s : State) : s.started.status = s.status := rfl
@[simp] theorem State.started_busy (s : State) : s.started.busy = true := rfl
@[simp] theorem State.started_done (s : State) : s.started.done = false := rfl
@[simp] theorem State.started_phase (s : State) : s.started.phase = .checkLen := rfl
@[simp] theorem State.started_old (s : State) : s.started.old = s.old := rfl
@[simp] theorem State.started_new (s : State) : s.started.new = s.new := rfl
@[simp] theorem State.started_ihl (s : State) : s.started.ihl = s.ihl := rfl
@[simp] theorem State.started_span (s : State) : s.started.span = s.span := rfl
@[simp] theorem State.started_acc (s : State) : s.started.acc = s.acc := rfl
@[simp] theorem State.started_ck (s : State) : s.started.ck = s.ck := rfl
@[simp] theorem State.started_crcreg (s : State) : s.started.crcreg = s.crcreg := rfl
@[simp] theorem State.started_draws (s : State) : s.started.draws = s.draws := rfl

@[simp] theorem State.finish_fb (s : State) (c : Status) : (s.finish c).fb = s.fb := rfl
@[simp] theorem State.finish_len (s : State) (c : Status) : (s.finish c).len = s.len := rfl
@[simp] theorem State.finish_setDf (s : State) (c : Status) : (s.finish c).setDf = s.setDf := rfl
@[simp] theorem State.finish_status (s : State) (c : Status) : (s.finish c).status = c.code := rfl
@[simp] theorem State.finish_busy (s : State) (c : Status) : (s.finish c).busy = false := rfl
@[simp] theorem State.finish_done (s : State) (c : Status) : (s.finish c).done = true := rfl
@[simp] theorem State.finish_phase (s : State) (c : Status) : (s.finish c).phase = .idle := rfl
@[simp] theorem State.finish_old (s : State) (c : Status) : (s.finish c).old = s.old := rfl
@[simp] theorem State.finish_new (s : State) (c : Status) : (s.finish c).new = s.new := rfl
@[simp] theorem State.finish_ihl (s : State) (c : Status) : (s.finish c).ihl = s.ihl := rfl
@[simp] theorem State.finish_span (s : State) (c : Status) : (s.finish c).span = s.span := rfl
@[simp] theorem State.finish_acc (s : State) (c : Status) : (s.finish c).acc = s.acc := rfl
@[simp] theorem State.finish_ck (s : State) (c : Status) : (s.finish c).ck = s.ck := rfl
@[simp] theorem State.finish_crcreg (s : State) (c : Status) : (s.finish c).crcreg = s.crcreg := rfl
@[simp] theorem State.finish_draws (s : State) (c : Status) : (s.finish c).draws = s.draws := rfl

/-- A failure ends an operation as success does, but for the code. -/
@[simp] theorem State.raise_eq_finish (s : State) (c : Status) : s.raise c = s.finish c := rfl

@[simp] theorem State.returnOk_eq_finish (s : State) : s.returnOk = s.finish .ok := rfl

@[simp] theorem State.withPhase_finish (s : State) (p : Phase) (c : Status) : (s.withPhase p).finish c = s.finish c := rfl

@[simp] theorem State.withFb_self (s : State) : s.withFb s.fb = s := rfl

@[simp] theorem State.withFb_withFb (s : State) (m n : Memory) : (s.withFb m).withFb n = s.withFb n := rfl

theorem State.withFb_withPhase (s : State) (m : Memory) (p : Phase) :
    (s.withPhase p).withFb m = (s.withFb m).withPhase p := rfl

end Sys2Proof.Machine
end

