-- ==== Sys2Proof/Laws/Memory.lean ====
section
/-! SUPPORT. The laws of the frame buffer: read after write, the canonical form, and what each access can answer. -/

namespace Sys2Proof.Machine

/-! ## andThen -/

section
variable {α β : Type}

@[simp] theorem andThen_next (a : α) (f : α → Host.Outcome β Fault Refusal) : andThen (.next a) f = f a := rfl

@[simp] theorem andThen_fault (r : Fault) (f : α → Host.Outcome β Fault Refusal) : andThen (.fault r) f = .fault r := rfl

@[simp] theorem andThen_refused (r : Refusal) (f : α → Host.Outcome β Fault Refusal) :
    andThen (.refused r) f = .refused r := rfl

theorem andThen_eq_next {x : Host.Outcome α Fault Refusal} {f : α → Host.Outcome β Fault Refusal} {b : β} :
    andThen x f = .next b ↔ ∃ a, x = .next a ∧ f a = .next b := by
  cases x <;> simp

theorem andThen_eq_fault {x : Host.Outcome α Fault Refusal} {f : α → Host.Outcome β Fault Refusal} {r : Fault} :
    andThen x f = .fault r ↔ x = .fault r ∨ ∃ a, x = .next a ∧ f a = .fault r := by
  cases x <;> simp

theorem andThen_eq_refused {x : Host.Outcome α Fault Refusal} {f : α → Host.Outcome β Fault Refusal} {r : Refusal} :
    andThen x f = .refused r ↔ x = .refused r ∨ ∃ a, x = .next a ∧ f a = .refused r := by
  cases x <;> simp

theorem andThen_assoc {γ : Type} (x : Host.Outcome α Fault Refusal) (f : α → Host.Outcome β Fault Refusal)
    (g : β → Host.Outcome γ Fault Refusal) : andThen (andThen x f) g = andThen x fun a => andThen (f a) g := by
  cases x <;> rfl

end

/-! ## Memory -/

@[simp] theorem Memory.lookup_nil (a : Nat) : Memory.lookup [] a = none := rfl

theorem Memory.lookup_cons (x : Nat) (b : Byte) (m : Memory) (a : Nat) :
    Memory.lookup ((x, b) :: m) a = if a = x then some b else m.lookup a := rfl

/-- Reading any byte after writing one. -/
theorem Memory.lookup_store (m : Memory) (a : Nat) (b : Byte) (c : Nat) :
    (m.store a b).lookup c = if c = a then some b else m.lookup c := by
  induction m with
  | nil => rfl
  | cons e m ih =>
    obtain ⟨x, y⟩ := e
    simp only [Memory.store]
    split
    · rfl
    · split
      · subst_vars; simp only [Memory.lookup_cons]; split <;> rfl
      · simp only [Memory.lookup_cons, ih]; grind

@[simp] theorem Memory.lookup_store_same (m : Memory) (a : Nat) (b : Byte) : (m.store a b).lookup a = some b := by
  simp [Memory.lookup_store]

theorem Memory.lookup_store_of_ne (m : Memory) (b : Byte) {a c : Nat} (h : c ≠ a) :
    (m.store a b).lookup c = m.lookup c := by
  simp [Memory.lookup_store, h]

theorem Memory.risingFrom_mono {lo lo' : Nat} {m : Memory} (hle : lo' ≤ lo) (h : m.risingFrom lo = true) :
    m.risingFrom lo' = true := by
  cases m with
  | nil => rfl
  | cons e m =>
    simp only [Memory.risingFrom, Bool.and_eq_true, decide_eq_true_eq] at *
    exact ⟨Nat.le_trans hle h.1, h.2⟩

theorem Memory.risingFrom_store {lo a : Nat} {m : Memory} (b : Byte) (hle : lo ≤ a) (h : m.risingFrom lo = true) :
    (m.store a b).risingFrom lo = true := by
  induction m generalizing lo with
  | nil => simp [Memory.store, Memory.risingFrom, hle]
  | cons e m ih =>
    obtain ⟨x, c⟩ := e
    simp only [Memory.risingFrom, Bool.and_eq_true, decide_eq_true_eq] at h
    simp only [Memory.store]
    split
    · simp only [Memory.risingFrom, Bool.and_eq_true, decide_eq_true_eq]; exact ⟨hle, by omega, h.2⟩
    · split
      · subst_vars; simpa [Memory.risingFrom, hle] using h.2
      · simp only [Memory.risingFrom, Bool.and_eq_true, decide_eq_true_eq]
        exact ⟨h.1, ih (by omega) h.2⟩

/-- A write keeps the canonical form. -/
theorem Memory.wf_store {m : Memory} (a : Nat) (b : Byte) (h : m.wf = true) : (m.store a b).wf = true :=
  Memory.risingFrom_store b (Nat.zero_le a) h

theorem Memory.wf_storeAll {m : Memory} (a : Nat) (bs : List Byte) (h : m.wf = true) : (m.storeAll a bs).wf = true := by
  induction bs generalizing m a with
  | nil => exact h
  | cons b bs ih => exact ih _ (Memory.wf_store a b h)

/-- Reading after a sequence of bytes has been written at rising offsets. -/
theorem Memory.lookup_storeAll (m : Memory) (a : Nat) (bs : List Byte) (c : Nat) :
    (m.storeAll a bs).lookup c = if a ≤ c ∧ c < a + bs.length then bs[c - a]? else m.lookup c := by
  induction bs generalizing m a with
  | nil => simp only [Memory.storeAll, List.length_nil]; split <;> [omega; rfl]
  | cons b bs ih =>
    simp only [Memory.storeAll, ih, Memory.lookup_store, List.length_cons]
    rcases Nat.lt_trichotomy c a with h | h | h
    · rw [if_neg (by omega), if_neg (by omega), if_neg (by omega)]
    · subst h; rw [if_neg (by omega), if_pos rfl, if_pos (by omega)]; simp
    · obtain ⟨d, rfl⟩ : ∃ d, c = a + 1 + d := ⟨c - (a + 1), by omega⟩
      rw [show a + 1 + d - (a + 1) = d by omega, show a + 1 + d - a = d + 1 by omega, List.getElem?_cons_succ]
      by_cases hd : d < bs.length
      · rw [if_pos (by omega), if_pos (by omega)]
      · rw [if_neg (by omega), if_neg (by omega), if_neg (by omega)]

theorem Memory.lookup_lt_of_risingFrom {lo a : Nat} {m : Memory} (h : m.risingFrom lo = true) (ha : a < lo) :
    m.lookup a = none := by
  induction m generalizing lo with
  | nil => rfl
  | cons e m ih =>
    obtain ⟨x, c⟩ := e
    simp only [Memory.risingFrom, Bool.and_eq_true, decide_eq_true_eq] at h
    rw [Memory.lookup_cons, if_neg (by omega)]
    exact ih h.2 (by omega)

theorem Memory.ext_of_risingFrom {lo : Nat} {m m' : Memory} (h : m.risingFrom lo = true) (h' : m'.risingFrom lo = true)
    (he : ∀ a, m.lookup a = m'.lookup a) : m = m' := by
  induction m generalizing lo m' with
  | nil =>
    cases m' with
    | nil => rfl
    | cons e m' => obtain ⟨y, c⟩ := e; have := he y; simp [Memory.lookup_cons] at this
  | cons e m ih =>
    obtain ⟨x, b⟩ := e
    cases m' with
    | nil => have := he x; simp [Memory.lookup_cons] at this
    | cons e' m' =>
      obtain ⟨y, c⟩ := e'
      simp only [Memory.risingFrom, Bool.and_eq_true, decide_eq_true_eq] at h h'
      have hx := he x; have hy := he y
      rw [Memory.lookup_cons, if_pos rfl, Memory.lookup_cons] at hx
      rw [Memory.lookup_cons, Memory.lookup_cons, if_pos rfl] at hy
      have hxy : x = y := by
        by_contra hne
        rw [if_neg hne] at hx; rw [if_neg (Ne.symm hne)] at hy
        rcases Nat.lt_or_ge x (y + 1) with hlt | hge
        · rw [Memory.lookup_lt_of_risingFrom h'.2 hlt] at hx; simp at hx
        · rw [Memory.lookup_lt_of_risingFrom h.2 (show y < x + 1 by omega)] at hy; simp at hy
      subst hxy
      simp only [if_true, Option.some.injEq] at hx
      subst hx
      congr 1
      refine ih h.2 h'.2 fun a => ?_
      by_cases ha : a = x
      · subst ha
        rw [Memory.lookup_lt_of_risingFrom h.2 (Nat.lt_succ_self a), Memory.lookup_lt_of_risingFrom h'.2 (Nat.lt_succ_self a)]
      · simpa [Memory.lookup_cons, ha] using he a

/-- Canonical memories that read alike are equal as data. -/
theorem Memory.ext_of_wf {m m' : Memory} (h : m.wf = true) (h' : m'.wf = true) (he : ∀ a, m.lookup a = m'.lookup a) :
    m = m' :=
  Memory.ext_of_risingFrom h h' he

/-! ## Byte accesses -/

theorem State.readByte_eq_next {s : State} {a : Nat} {b : Byte} :
    s.readByte a = .next b ↔ a < s.len ∧ s.fb.lookup a = some b := by
  unfold State.readByte
  split
  · cases h : s.fb.lookup a <;> simp_all
  · simp_all

theorem State.readByte_eq_fault {s : State} {a : Nat} {r : Fault} :
    s.readByte a = .fault r ↔ s.len ≤ a ∧ r = .outsideBuffer a := by
  unfold State.readByte
  split
  · cases h : s.fb.lookup a <;> simp <;> omega
  · simp_all [eq_comm]

theorem State.readByte_eq_refused {s : State} {a : Nat} {r : Refusal} :
    s.readByte a = .refused r ↔ a < s.len ∧ s.fb.lookup a = none ∧ r = .unwrittenByte a := by
  unfold State.readByte
  split
  · next hlt => cases h : s.fb.lookup a <;> simp [hlt, eq_comm]
  · next hge => simp [hge]

/-- A byte read looks at FB and LEN only. -/
theorem State.readByte_congr {s t : State} (hf : s.fb = t.fb) (hl : s.len = t.len) (a : Nat) :
    s.readByte a = t.readByte a := by
  simp only [State.readByte, hf, hl]

@[simp] theorem State.readByte_withPhase (s : State) (p : Phase) (a : Nat) :
    (s.withPhase p).readByte a = s.readByte a := rfl

theorem State.writeByte_of_lt {s : State} {a : Nat} (b : Byte) (h : a < s.len) :
    s.writeByte a b = .next (s.withFb (s.fb.store a b)) := by
  simp [State.writeByte, h]

theorem State.writeByte_eq_next {s t : State} {a : Nat} {b : Byte} :
    s.writeByte a b = .next t ↔ a < s.len ∧ t = s.withFb (s.fb.store a b) := by
  unfold State.writeByte; split <;> simp_all [eq_comm]

theorem State.writeByte_not_refused (s : State) (a : Nat) (b : Byte) (r : Refusal) : s.writeByte a b ≠ .refused r := by
  unfold State.writeByte; split <;> simp

/-! ## MemRead, MemWrite and spans -/

/-- A read of a span answers the bytes that FB holds there, all of them inside the buffer. -/
theorem State.readSpan_eq_next {s : State} {a n : Nat} {bs : List Byte} :
    s.readSpan a n = .next bs ↔ bs.length = n ∧ ∀ k, k < n → a + k < s.len ∧ s.fb.lookup (a + k) = bs[k]? := by
  induction n generalizing a bs with
  | zero => cases bs <;> simp [State.readSpan]
  | succ n ih =>
    simp only [State.readSpan, andThen_eq_next, State.readByte_eq_next, ih, Host.Outcome.next.injEq]
    constructor
    · rintro ⟨b, ⟨hlt, hb⟩, cs, ⟨hl, hk⟩, rfl⟩
      refine ⟨by simp [hl], fun k hkn => ?_⟩
      cases k with
      | zero => simpa using ⟨hlt, hb⟩
      | succ k => simpa [Nat.add_assoc, Nat.add_comm 1] using hk k (by omega)
    · rintro ⟨hl, hk⟩
      cases bs with
      | nil => simp at hl
      | cons b cs =>
        refine ⟨b, by simpa using hk 0 (by omega), cs, ⟨by simpa using hl, fun k hkn => ?_⟩, rfl⟩
        simpa [Nat.add_assoc, Nat.add_comm 1] using hk (k + 1) (by omega)

theorem State.readSpan_congr {s t : State} (hf : s.fb = t.fb) (hl : s.len = t.len) (a n : Nat) :
    s.readSpan a n = t.readSpan a n := by
  induction n generalizing a with
  | zero => rfl
  | succ n ih => simp only [State.readSpan, State.readByte_congr hf hl, ih]

theorem State.readSpan_eq_fault {s : State} {a n : Nat} {r : Fault} (h : s.readSpan a n = .fault r) :
    s.len < a + n := by
  induction n generalizing a with
  | zero => simp [State.readSpan] at h
  | succ n ih =>
    simp only [State.readSpan, andThen_eq_fault, State.readByte_eq_fault, State.readByte_eq_next] at h
    rcases h with h | ⟨b, _, h⟩
    · omega
    · rcases h with h | ⟨cs, _, h⟩
      · have := ih h; omega
      · simp at h

theorem State.readSpan_eq_refused {s : State} {a n : Nat} {r : Refusal} (h : s.readSpan a n = .refused r) :
    ∃ k, k < s.len ∧ s.fb.lookup k = none ∧ r = .unwrittenByte k := by
  induction n generalizing a with
  | zero => simp [State.readSpan] at h
  | succ n ih =>
    simp only [State.readSpan, andThen_eq_refused, State.readByte_eq_refused] at h
    rcases h with h | ⟨b, _, h⟩
    · exact ⟨a, h⟩
    · rcases h with h | ⟨cs, _, h⟩
      · exact ih h
      · simp at h

theorem State.memRead_congr {s t : State} (hf : s.fb = t.fb) (hl : s.len = t.len) (a n : Nat) :
    s.memRead a n = t.memRead a n := by
  induction n with
  | zero => rfl
  | succ n ih => simp only [State.memRead, ih, State.readByte_congr hf hl]

/-- Reading two bytes one after the other concatenates them. -/
theorem halfOf_bytes (b c : Byte) : ((0#0 ++ b : BitVec (0 + 8)) ++ c : BitVec (0 + 8 + 8)) = b ++ c := by
  apply BitVec.eq_of_toNat_eq
  rw [BitVec.toNat_append, BitVec.toNat_append, BitVec.toNat_append]
  simp

/-- A 16-bit read is its two bytes, the lower offset high (R9). -/
theorem State.memRead_two_eq_next {s : State} {a : Nat} {v : BitVec (8 * 2)} :
    s.memRead a 2 = .next v ↔
      a + 1 < s.len ∧ ∃ hi lo : Byte, s.fb.lookup a = some hi ∧ s.fb.lookup (a + 1) = some lo ∧ v = hi ++ lo := by
  simp only [State.memRead, andThen_eq_next, State.readByte_eq_next, Host.Outcome.next.injEq, Nat.add_zero]
  constructor
  · rintro ⟨w, ⟨z, rfl, b, ⟨h0, hb⟩, rfl⟩, c, ⟨h1, hc⟩, rfl⟩
    refine ⟨h1, b, c, hb, hc, ?_⟩
    exact halfOf_bytes b c
  · rintro ⟨h1, b, c, hb, hc, rfl⟩
    refine ⟨_, ⟨_, rfl, b, ⟨by omega, hb⟩, rfl⟩, c, ⟨h1, hc⟩, ?_⟩
    exact halfOf_bytes b c

theorem State.memRead_eq_fault {s : State} {a n : Nat} {r : Fault} (h : s.memRead a n = .fault r) : s.len < a + n := by
  induction n with
  | zero => simp [State.memRead] at h
  | succ n ih =>
    simp only [State.memRead, andThen_eq_fault, State.readByte_eq_fault] at h
    rcases h with h | ⟨v, _, h | ⟨b, _, h⟩⟩
    · have := ih h; omega
    · omega
    · simp at h

theorem State.memRead_eq_refused {s : State} {a n : Nat} {r : Refusal} (h : s.memRead a n = .refused r) :
    ∃ k, k < s.len ∧ s.fb.lookup k = none ∧ r = .unwrittenByte k := by
  induction n with
  | zero => simp [State.memRead] at h
  | succ n ih =>
    simp only [State.memRead, andThen_eq_refused, State.readByte_eq_refused] at h
    rcases h with h | ⟨v, _, h | ⟨b, _, h⟩⟩
    · exact ih h
    · exact ⟨_, h⟩
    · simp at h

/-- A byte of the low part of a value is a byte of the value. -/
theorem extractLsb'_setWidth_low {w m i k : Nat} (v : BitVec w) (h : i + k ≤ m) :
    (v.setWidth m).extractLsb' i k = v.extractLsb' i k := by
  ext j hj; simp; omega

/-- Inside the buffer a 16-bit write stores its two bytes, the high one at the lower offset (R9). -/
theorem State.memWrite_two {s : State} {a : Nat} (v : BitVec (8 * 2)) (h : a + 1 < s.len) :
    s.memWrite a 2 v =
      .next (s.withFb ((s.fb.store a (v.extractLsb' 8 8)).store (a + 1) (v.extractLsb' 0 8))) := by
  have h0 : a < s.len := by omega
  simp only [State.memWrite, State.writeByte_of_lt _ h0, andThen_next]
  rw [State.writeByte_of_lt _ (by simpa using h)]
  simp only [andThen_next, State.withFb_fb, State.withFb_withFb]
  rw [extractLsb'_setWidth_low v (by omega)]

/-- Inside the buffer a 32-bit write stores its four bytes, the high one at the lowest offset (R9). -/
theorem State.memWrite_four {s : State} {a : Nat} (v : BitVec (8 * 4)) (h : a + 3 < s.len) :
    s.memWrite a 4 v =
      .next (s.withFb ((((s.fb.store a (v.extractLsb' 24 8)).store (a + 1) (v.extractLsb' 16 8)).store (a + 2)
        (v.extractLsb' 8 8)).store (a + 3) (v.extractLsb' 0 8))) := by
  have h0 : a < s.len := by omega
  simp only [State.memWrite, State.writeByte_of_lt _ h0, andThen_next]
  rw [State.writeByte_of_lt _ (by simp; omega)]
  simp only [andThen_next]
  rw [State.writeByte_of_lt _ (by simp; omega)]
  simp only [andThen_next]
  rw [State.writeByte_of_lt _ (by simp; omega)]
  simp only [andThen_next, State.withFb_fb, State.withFb_withFb, Nat.add_assoc]
  simp only [extractLsb'_setWidth_low _ (show 8 * 0 + 8 ≤ 8 * 1 by omega),
    extractLsb'_setWidth_low _ (show 8 * 0 + 8 ≤ 8 * 2 by omega), extractLsb'_setWidth_low _ (show 8 * 0 + 8 ≤ 8 * 3 by omega),
    extractLsb'_setWidth_low _ (show 8 * 1 + 8 ≤ 8 * 2 by omega), extractLsb'_setWidth_low _ (show 8 * 1 + 8 ≤ 8 * 3 by omega),
    extractLsb'_setWidth_low _ (show 8 * 2 + 8 ≤ 8 * 3 by omega)]

/-- A write moves FB only, inside the written bytes, and keeps the canonical form. -/
theorem State.memWrite_next_frame {s t : State} {a n : Nat} {v : BitVec (8 * n)} (h : s.memWrite a n v = .next t) :
    t = s.withFb t.fb ∧ (∀ c, c < a ∨ a + n ≤ c → t.fb.lookup c = s.fb.lookup c) ∧ (s.fb.wf = true → t.fb.wf = true) := by
  induction n generalizing s a with
  | zero => simp only [State.memWrite, Host.Outcome.next.injEq] at h; subst h; simp
  | succ n ih =>
    simp only [State.memWrite, andThen_eq_next, State.writeByte_eq_next] at h
    obtain ⟨u, ⟨_, rfl⟩, h⟩ := h
    obtain ⟨h1, h2, h3⟩ := ih h
    refine ⟨by simpa using h1, fun c hc => ?_, fun hw => h3 (Memory.wf_store _ _ hw)⟩
    rw [h2 c (by omega), State.withFb_fb, Memory.lookup_store_of_ne _ _ (by omega)]

theorem State.memWrite_eq_fault {s : State} {a n : Nat} {v : BitVec (8 * n)} {r : Fault}
    (h : s.memWrite a n v = .fault r) : s.len < a + n := by
  induction n generalizing s a with
  | zero => simp [State.memWrite] at h
  | succ n ih =>
    simp only [State.memWrite, andThen_eq_fault, State.writeByte_eq_next] at h
    rcases h with h | ⟨u, ⟨_, rfl⟩, h⟩
    · unfold State.writeByte at h; split at h
      · simp at h
      · omega
    · have := ih h; simp at this; omega

theorem State.memWrite_not_refused (s : State) (a n : Nat) (v : BitVec (8 * n)) (r : Refusal) :
    s.memWrite a n v ≠ .refused r := by
  induction n generalizing s a with
  | zero => simp [State.memWrite]
  | succ n ih =>
    intro h
    simp only [State.memWrite, andThen_eq_refused] at h
    rcases h with h | ⟨u, _, h⟩
    · exact State.writeByte_not_refused _ _ _ _ h
    · exact ih _ _ _ h

end Sys2Proof.Machine
end

