-- ==== Sys2Proof/Laws/Caller.lean ====
section
/-! SUPPORT. The laws of the caller's operations and of reset: the canonical form is kept, and what they do to FB. -/

namespace Sys2Proof.Machine

/-- The memory after the first reset has the canonical form. -/
theorem State.reset_fb_wf : State.reset.fb.wf = true := rfl

theorem State.drawBytes_wf {s : State} {m : Memory} (k : Nat) (l : List Nat) (h : m.wf = true) :
    (s.drawBytes m k l).wf = true := by
  induction l generalizing m k with
  | nil => exact h
  | cons a l ih => exact ih _ (Memory.wf_store _ _ h)

/-- A byte that is not drawn anew is as it was. -/
theorem State.drawBytes_lookup {s : State} {m : Memory} {k a : Nat} {l : List Nat} (h : a ∉ l) :
    (s.drawBytes m k l).lookup a = m.lookup a := by
  induction l generalizing m k with
  | nil => rfl
  | cons b l ih =>
    simp only [List.mem_cons, not_or] at h
    rw [State.drawBytes, ih h.2, Memory.lookup_store_of_ne _ _ h.1]

/-- Reset keeps the canonical form, in every phase. -/
theorem callerReset_fb_wf {s : State} (h : s.fb.wf = true) : (callerReset s).fb.wf = true := by
  simp only [callerReset, State.fbAfterReset]
  split
  · rfl
  · exact State.drawBytes_wf _ _ h

/-- LEN takes every value: MAX_LEN is unbounded (log 7). -/
@[simp] theorem Config.lenAllowed_eq (n : Nat) : Config.lenAllowed n = true := rfl

/-! ## What each access of the caller can answer -/

theorem callerWriteByte_eq_next {a : Nat} {b : Byte} {s t : State} :
    callerWriteByte a b s = .next t ↔ s.busy = false ∧ t = s.withFb (s.fb.store a b) := by
  cases h : s.busy <;> simp [callerWriteByte, h, eq_comm]

theorem callerPlaceFrame_eq_next {bs : List Byte} {s t : State} :
    callerPlaceFrame bs s = .next t ↔ s.busy = false ∧ t = (s.withFb (s.fb.storeAll 0 bs)).withLen bs.length := by
  cases h : s.busy <;> simp [callerPlaceFrame, h, eq_comm]

theorem callerWriteLen_eq_next {n : Nat} {s t : State} :
    callerWriteLen n s = .next t ↔ s.busy = false ∧ t = s.withLen n := by
  cases h : s.busy <;> simp [callerWriteLen, h, eq_comm]

theorem callerWriteSetDf_eq_next {d : BitVec 1} {s t : State} :
    callerWriteSetDf d s = .next t ↔ s.busy = false ∧ t = s.withSetDf d := by
  cases h : s.busy <;> simp [callerWriteSetDf, h, eq_comm]

theorem callerStart_eq_next {s t : State} : callerStart s = .next t ↔ s.busy = false ∧ t = s.started := by
  cases h : s.busy <;> simp [callerStart, h, eq_comm]

/-- The caller's read of FB: the block must be idle, the offset inside the buffer and the byte written. -/
theorem callerReadByte_eq_next {a : Nat} {b : Byte} {s : State} :
    callerReadByte a s = .next b ↔ s.busy = false ∧ a < s.len ∧ s.fb.lookup a = some b := by
  cases h : s.busy <;> simp [callerReadByte, h, State.readByte_eq_next]

theorem callerReadByte_eq_fault {a : Nat} {s : State} {r : Fault} :
    callerReadByte a s = .fault r ↔ s.busy = false ∧ s.len ≤ a ∧ r = .outsideBuffer a := by
  cases h : s.busy <;> simp [callerReadByte, h, State.readByte_eq_fault]

theorem callerReadByte_eq_refused {a : Nat} {s : State} {r : Refusal} :
    callerReadByte a s = .refused r ↔
      (s.busy = true ∧ r = .bufferOwnedByBlock) ∨
      (s.busy = false ∧ a < s.len ∧ s.fb.lookup a = none ∧ r = .unwrittenByte a) := by
  cases h : s.busy
  · simp [callerReadByte, h, State.readByte_eq_refused]
  · simp [callerReadByte, h, eq_comm]

/-- The caller's read of STATUS: an operation has ended and none has been started since. -/
theorem callerReadStatus_eq_next {v : BitVec 2} {s : State} :
    callerReadStatus s = .next v ↔ s.done = true ∧ s.busy = false ∧ v = s.status := by
  cases h : s.done <;> cases h' : s.busy <;> simp [callerReadStatus, h, h', eq_comm]

/-- Everything a move of the caller can do to a state, reset apart. -/
theorem callerMove_next_cases {m : CallerMove} {s t : State} (h : callerMove m s = .next t) :
    t = callerReset s ∨
    (s.busy = false ∧
      (t = s.started ∨ (∃ d, t = s.withSetDf d) ∨ (∃ n, t = s.withLen n) ∨ (∃ a b, t = s.withFb (s.fb.store a b)) ∨
        ∃ bs : List Byte, t = (s.withFb (s.fb.storeAll 0 bs)).withLen bs.length)) := by
  cases m with
  | writeByte a b => exact .inr ((callerWriteByte_eq_next.mp h).imp_right fun e => .inr (.inr (.inr (.inl ⟨a, b, e⟩))))
  | placeFrame bs => exact .inr ((callerPlaceFrame_eq_next.mp h).imp_right fun e => .inr (.inr (.inr (.inr ⟨bs, e⟩))))
  | writeLen n => exact .inr ((callerWriteLen_eq_next.mp h).imp_right fun e => .inr (.inr (.inl ⟨n, e⟩)))
  | writeSetDf d => exact .inr ((callerWriteSetDf_eq_next.mp h).imp_right fun e => .inr (.inl ⟨d, e⟩))
  | start => exact .inr ((callerStart_eq_next.mp h).imp_right .inl)
  | reset => exact .inl (by simpa [callerMove] using h.symm)

end Sys2Proof.Machine
end

