-- ==== Sys2Proof/Laws/Mdf.lean ====
section
/-! SUPPORT. What the steps of the MDF operation can do, said once: cite these instead of unfolding the steps. -/

namespace Sys2Proof.Machine

theorem minLen_eq : minLen = 38 := rfl

/-! ## The operands -/

theorem State.readEtherType_eq_next {s : State} {et : Half} :
    s.readEtherType = .next et ↔
      13 < s.len ∧ ∃ hi lo : Byte, s.fb.lookup 12 = some hi ∧ s.fb.lookup 13 = some lo ∧ et = hi ++ lo :=
  State.memRead_two_eq_next

theorem State.loadFlags_eq_next {s t : State} {d : BitVec 1} :
    s.loadFlags d = .next t ↔
      21 < s.len ∧ ∃ hi lo : Byte, s.fb.lookup 20 = some hi ∧ s.fb.lookup 21 = some lo ∧
        t = s.withFlags (hi ++ lo) (newFlags d (hi ++ lo)) := by
  simp only [State.loadFlags, andThen_eq_next, fragOff, Host.Outcome.next.injEq]
  constructor
  · rintro ⟨v, hv, rfl⟩
    obtain ⟨h, b, c, hb, hc, rfl⟩ := State.memRead_two_eq_next.mp hv
    exact ⟨h, b, c, hb, hc, rfl⟩
  · rintro ⟨h, b, c, hb, hc, rfl⟩
    exact ⟨_, State.memRead_two_eq_next.mpr ⟨h, b, c, hb, hc, rfl⟩, rfl⟩

theorem State.loadSpan_eq_next {s t : State} :
    s.loadSpan = .next t ↔
      14 < s.len ∧ ∃ b : Byte, s.fb.lookup 14 = some b ∧ t = s.withSpan (ihlOf b) (spanOf (ihlOf b)) := by
  simp only [State.loadSpan, andThen_eq_next, ipOff, State.readByte_eq_next, Host.Outcome.next.injEq]
  constructor
  · rintro ⟨b, ⟨h, hb⟩, rfl⟩; exact ⟨h, b, hb, rfl⟩
  · rintro ⟨h, b, hb, rfl⟩; exact ⟨b, ⟨h, hb⟩, rfl⟩

/-- SPAN is 4 × IHL, from 0 to 60 (R68). -/
theorem spanOf_toNat (ihl : BitVec 4) : (spanOf ihl).toNat = 4 * ihl.toNat := by
  have := ihl.isLt
  simp only [spanOf, BitVec.toNat_mul, BitVec.toNat_setWidth, BitVec.toNat_ofNat]
  omega

theorem spanLeavesFrame_iff (s : State) : s.spanLeavesFrame = true ↔ s.len < 14 + s.span.toNat :=
  decide_eq_true_iff

/-! ## The rewrite, S6 to S12 -/

/-- FB after S7: the flags field holds NEW, the checksum field is zero. -/
def State.zeroedFb (s : State) : Memory :=
  (((s.fb.store 20 (s.new.extractLsb' 8 8)).store 21 (s.new.extractLsb' 0 8)).store 24 0#8).store 25 0#8

/-- FB after S9, with the checksum `ck`. -/
def State.summedFb (s : State) (ck : Half) : Memory :=
  (s.zeroedFb.store 24 (ck.extractLsb' 8 8)).store 25 (ck.extractLsb' 0 8)

/-- FB after S11, with the checksum `ck` and the FCS `c`. -/
def State.rewrittenFb (s : State) (ck : Half) (c : Word) : Memory :=
  ((((s.summedFb ck).store (s.len - 4) (c.extractLsb' 24 8)).store (s.len - 4 + 1) (c.extractLsb' 16 8)).store
    (s.len - 4 + 2) (c.extractLsb' 8 8)).store (s.len - 4 + 3) (c.extractLsb' 0 8)

/-- In a buffer long enough, the rewrite answers a next state exactly when the header span and the body can be read,
and that state is this one. -/
theorem State.rewrite_eq_next {s t : State} (hlen : 38 ≤ s.len) :
    s.rewrite = .next t ↔
      ∃ hdr body : List Byte,
        (s.withFb s.zeroedFb).readSpan 14 s.span.toNat = .next hdr ∧
        (s.withFb (s.summedFb (csum16 hdr))).readSpan 0 (s.len - 4) = .next body ∧
        t = (((s.withFb (s.rewrittenFb (csum16 hdr) (crc32 body))).withCsum (csumAcc hdr) (csum16 hdr)).withCrcreg
          (crcRun crcInit body)).finish .ok := by
  have h67 : ∀ f : State → Host.Outcome State Fault Refusal,
      andThen s.writeFlags (fun s6 => andThen s6.zeroCsum f) = f (s.withFb s.zeroedFb) := by
    intro f
    simp only [State.writeFlags, State.zeroCsum, fragOff, csumOff]
    rw [State.memWrite_two _ (by omega), andThen_next, State.memWrite_two _ (by simp; omega), andThen_next]
    rfl
  unfold State.rewrite
  rw [h67]
  simp only [State.runCsum, andThen_assoc, andThen_next, ipOff, State.withFb_span]
  rw [andThen_eq_next]
  constructor
  · rintro ⟨hdr, hh, h⟩
    obtain ⟨s9, h9, h⟩ := andThen_eq_next.mp h
    obtain ⟨s10, h10, h⟩ := andThen_eq_next.mp h
    obtain ⟨s11, h11, ht⟩ := andThen_eq_next.mp h
    simp only [State.runCrc, andThen_eq_next, Host.Outcome.next.injEq] at h10
    obtain ⟨body, hb, rfl⟩ := h10
    simp only [State.writeCsum, csumOff] at h9
    rw [State.memWrite_two _ (by simp; omega)] at h9
    simp only [Host.Outcome.next.injEq] at h9
    subst h9
    simp only [State.writeFcs, fcsOff, fcsLen] at h11 hb
    rw [State.memWrite_four _ (by simp; omega)] at h11
    simp only [Host.Outcome.next.injEq] at h11 ht
    subst h11; subst ht
    exact ⟨hdr, body, hh, by rw [← hb]; exact State.readSpan_congr (by rfl) (by rfl) _ _, rfl⟩
  · rintro ⟨hdr, body, hh, hb, rfl⟩
    refine ⟨hdr, hh, andThen_eq_next.mpr ⟨_, State.memWrite_two _ (by simp [csumOff]; omega), ?_⟩⟩
    refine andThen_eq_next.mpr ⟨_, andThen_eq_next.mpr ⟨body, ?_, rfl⟩, ?_⟩
    · simp only [fcsOff, fcsLen]; rw [← hb]; exact State.readSpan_congr (by rfl) (by rfl) _ _
    · exact andThen_eq_next.mpr ⟨_, State.memWrite_four _ (by simp [fcsOff, fcsLen]; omega), rfl⟩

/-- The rewrite cannot fault when the span and the FCS lie in the buffer (R48). -/
theorem State.rewrite_ne_fault {s : State} (hlen : 38 ≤ s.len) (hspan : 14 + s.span.toNat ≤ s.len) (r : Fault) :
    s.rewrite ≠ .fault r := by
  intro h
  simp only [State.rewrite, andThen_eq_fault] at h
  rcases h with h | ⟨s6, h6, h⟩
  · have := State.memWrite_eq_fault h; simp only [fragOff] at this; omega
  obtain ⟨e6, -, -⟩ := State.memWrite_next_frame h6
  have l6 : s6.len = s.len := by rw [e6]; rfl
  have p6 : s6.span = s.span := by rw [e6]; rfl
  rcases h with h | ⟨s7, h7, h⟩
  · have := State.memWrite_eq_fault h; simp only [csumOff] at this; omega
  obtain ⟨e7, -, -⟩ := State.memWrite_next_frame h7
  have l7 : s7.len = s.len := by rw [e7]; exact l6
  have p7 : s7.span = s.span := by rw [e7]; exact p6
  rcases h with h | ⟨s8, h8, h⟩
  · simp only [State.runCsum, andThen_eq_fault] at h
    rcases h with h | ⟨_, _, h⟩
    · have := State.readSpan_eq_fault h; rw [p7, l7] at this; simp only [ipOff] at this; omega
    · simp at h
  have l8 : s8.len = s.len := by
    simp only [State.runCsum, andThen_eq_next, Host.Outcome.next.injEq] at h8
    obtain ⟨_, _, rfl⟩ := h8; exact l7
  rcases h with h | ⟨s9, h9, h⟩
  · have := State.memWrite_eq_fault h; simp only [csumOff] at this; omega
  obtain ⟨e9, -, -⟩ := State.memWrite_next_frame h9
  have l9 : s9.len = s.len := by rw [e9]; exact l8
  rcases h with h | ⟨s10, h10, h⟩
  · simp only [State.runCrc, andThen_eq_fault] at h
    rcases h with h | ⟨_, _, h⟩
    · have := State.readSpan_eq_fault h; simp only [fcsOff] at this; omega
    · simp at h
  have l10 : s10.len = s.len := by
    simp only [State.runCrc, andThen_eq_next, Host.Outcome.next.injEq] at h10
    obtain ⟨_, _, rfl⟩ := h10; exact l9
  rcases h with h | ⟨s11, _, h⟩
  · have := State.memWrite_eq_fault h; simp only [fcsOff, fcsLen] at this; omega
  · simp at h

/-! ## The whole operation -/

/-- Everything an operation can do when it ends: the four exits of R80 and the rewrite. -/
theorem mdf_next_cases {d : BitVec 1} {s t : State} (h : mdf d s = .next t) :
    (s.len < 38 ∧ t = s.finish .frameTooSmall) ∨
    (38 ≤ s.len ∧ ∃ et, s.readEtherType = .next et ∧
      ((et ≠ etypeIpv4 ∧ t = s.finish .notIpv4) ∨
       (et = etypeIpv4 ∧ ∃ s3, s.loadFlags d = .next s3 ∧
        ((s3.new = s3.old ∧ t = s3.finish .ok) ∨
         (s3.new ≠ s3.old ∧ ∃ s5, s3.loadSpan = .next s5 ∧
          ((s5.len < 14 + s5.span.toNat ∧ t = s5.finish .spanOutOfFrame) ∨
           (14 + s5.span.toNat ≤ s5.len ∧ s5.rewrite = .next t))))))) := by
  unfold mdf at h
  split at h
  · next hl =>
    rw [minLen_eq] at hl
    exact .inl ⟨hl, by simpa using h.symm⟩
  · next hl =>
    rw [minLen_eq] at hl
    refine .inr ⟨by omega, ?_⟩
    obtain ⟨et, he, h⟩ := andThen_eq_next.mp h
    refine ⟨et, he, ?_⟩
    split at h
    · next hne => exact .inl ⟨hne, by simpa using h.symm⟩
    · next heq =>
      obtain ⟨s3, h3, h⟩ := andThen_eq_next.mp h
      refine .inr ⟨not_not.mp heq, s3, h3, ?_⟩
      split at h
      · next hun => exact .inl ⟨hun, by simpa using h.symm⟩
      · next hch =>
        obtain ⟨s5, h5, h⟩ := andThen_eq_next.mp h
        refine .inr ⟨hch, s5, h5, ?_⟩
        split at h
        · next hsp => exact .inl ⟨(spanLeavesFrame_iff _).mp hsp, by simpa using h.symm⟩
        · next hsp =>
          rw [spanLeavesFrame_iff] at hsp
          exact .inr ⟨by omega, h⟩

/-- The exits and the rewrite are the whole of it: each of these cases is how the operation ends. -/
theorem mdf_eq_next {d : BitVec 1} {s t : State} :
    mdf d s = .next t ↔
    (s.len < 38 ∧ t = s.finish .frameTooSmall) ∨
    (38 ≤ s.len ∧ ∃ et, s.readEtherType = .next et ∧
      ((et ≠ etypeIpv4 ∧ t = s.finish .notIpv4) ∨
       (et = etypeIpv4 ∧ ∃ s3, s.loadFlags d = .next s3 ∧
        ((s3.new = s3.old ∧ t = s3.finish .ok) ∨
         (s3.new ≠ s3.old ∧ ∃ s5, s3.loadSpan = .next s5 ∧
          ((s5.len < 14 + s5.span.toNat ∧ t = s5.finish .spanOutOfFrame) ∨
           (14 + s5.span.toNat ≤ s5.len ∧ s5.rewrite = .next t))))))) := by
  refine ⟨mdf_next_cases, fun h => ?_⟩
  unfold mdf
  rcases h with ⟨hl, rfl⟩ | ⟨hl, et, he, h⟩
  · rw [if_pos (by rw [minLen_eq]; exact hl)]; rfl
  rw [if_neg (by rw [minLen_eq]; omega), he, andThen_next]
  rcases h with ⟨hne, rfl⟩ | ⟨heq, s3, h3, h⟩
  · rw [if_pos hne]; rfl
  rw [if_neg (not_not.mpr heq), h3, andThen_next]
  rcases h with ⟨hun, rfl⟩ | ⟨hch, s5, h5, h⟩
  · rw [if_pos hun]; rfl
  rw [if_neg hch, h5, andThen_next]
  rcases h with ⟨hsp, rfl⟩ | ⟨hsp, h⟩
  · rw [if_pos ((spanLeavesFrame_iff _).mpr hsp)]; rfl
  · rw [if_neg (by rw [spanLeavesFrame_iff]; omega)]; exact h

/-- Both commands are MDF with their own command bit (R81, R82). -/
theorem exec_eq_mdf (i : Instr) (s : State) : exec i s = mdf i.commandBit s := by
  cases i <;> rfl

end Sys2Proof.Machine
end

