-- ==== Sys2Proof/Laws/PerInstr.lean ====
section
/-! SUPPORT. The statements made per instruction. -/

namespace Sys2Proof.Laws

/-- The command word of an instruction is its row's match under its row's mask (spec/30_encoding.md R61;
spec/opcode_table.json), it fits the byte it is stored in, and the instruction is well formed. -/
def TableRow.Statement (i : Instr) : Prop :=
  i.wf = true ∧ (encode i).all commandByteWf = true ∧
    (i.commandBit.toNat &&& 0x1) = match i with | .mdfClr => 0x0 | .mdfSet => 0x1

theorem TableRow.mdfClr : TableRow.Statement .mdfClr := ⟨rfl, rfl, rfl⟩

theorem TableRow.mdfSet : TableRow.Statement .mdfSet := ⟨rfl, rfl, rfl⟩

end Sys2Proof.Laws
end

