-- ==== Sys2Proof/Laws/Reference.lean ====
section
/-! SUPPORT. The laws of frames as lists of bytes, and of the states that hold them. -/

namespace Sys2Proof.Machine

@[simp] theorem frameSetHalf_length (fb : List Byte) (a : Nat) (v : Half) : (frameSetHalf fb a v).length = fb.length := by
  simp [frameSetHalf]

@[simp] theorem wordBytes_length (c : Word) : (wordBytes c).length = 4 := rfl

theorem frameWithChecksum_length (fb : List Byte) (new : Half) : (frameWithChecksum fb new).length = fb.length := by
  simp [frameWithChecksum]

theorem frameWithFcs_length {fb : List Byte} (h : 4 ≤ fb.length) : (frameWithFcs fb).length = fb.length := by
  simp [frameWithFcs, frameBody, fcsOff, fcsLen]; omega

/-- A byte of the frame a state holds. -/
theorem State.holds_lookup {s : State} {bs : List Byte} {a : Nat} (h : s.holds bs) (ha : a < bs.length) :
    s.fb.lookup a = some (bs.getD a 0#8) := by
  rw [h.2 a ha, List.getD_eq_getElem?_getD, List.getElem?_eq_getElem ha]; rfl

/-- A span of the frame a state holds is read as it stands. -/
theorem State.holds_readSpan {s : State} {bs : List Byte} {a n : Nat} (h : s.holds bs) (hn : a + n ≤ bs.length) :
    s.readSpan a n = .next ((bs.drop a).take n) := by
  rw [State.readSpan_eq_next]
  refine ⟨by simp; omega, fun k hk => ⟨by rw [h.1]; omega, ?_⟩⟩
  rw [h.2 _ (by omega)]
  simp [hk]

/-- A state that holds a frame is filled. -/
theorem State.filled_of_holds {s : State} {bs : List Byte} (h : s.holds bs) : s.filled := by
  intro a ha
  rw [State.holds_lookup h (h.1 ▸ ha)]; rfl

/-- Placing a frame makes a state that holds it. -/
theorem State.placed_holds (s : State) (bs : List Byte) : ((s.withFb (s.fb.storeAll 0 bs)).withLen bs.length).holds bs := by
  refine ⟨rfl, fun a ha => ?_⟩
  simp [Memory.lookup_storeAll, ha]

end Sys2Proof.Machine
end

