-- ==== Sys2Proof/Tests/Slice0.lean ====
section
/-! SUPPORT. The model's own tests, each with the vector of spec/95_test_vectors.md it is taken from, and for every
statement with hypotheses a concrete state that meets them. -/

namespace Sys2Proof.Tests

open Sys2Proof Sys2Proof.Machine

/-! ## Helpers -/

/-- A block that holds a frame and has been started with a command. -/
def loaded (bs : List Byte) (d : BitVec 1) : State :=
  ((State.reset.withFb (Memory.storeAll [] 0 bs)).withLen bs.length |>.withSetDf d).started

/-- Does an outcome answer a next state with a property? -/
def answers (o : Host.Outcome State Fault Refusal) (p : State → Bool) : Bool :=
  match o with
  | .next t => p t
  | .fault _ => false
  | .refused _ => false

theorem answers_exists {o : Host.Outcome State Fault Refusal} {p : State → Bool} (h : answers o p = true) :
    ∃ t, o = .next t ∧ p t = true := by
  cases o with
  | next t => exact ⟨t, rfl, h⟩
  | fault r => simp [answers] at h
  | refused r => simp [answers] at h

/-- The bytes of FB in order. -/
def bytesOf (s : State) : List Byte := s.fb.map Prod.snd

def stations : List Byte := [0x02, 0, 0, 0, 0, 0x01, 0x02, 0, 0, 0, 0, 0x02]

/-- A 38-byte frame: EtherType, first header byte, flags field, checksum, FCS; the other bytes as in frame A. -/
def frame (et : List Byte) (first : Byte) (flags ck fcs : List Byte) : List Byte :=
  stations ++ et ++ [first, 0x00, 0x00, 0x14, 0x12, 0x34] ++ flags ++ [0x40, 0x11] ++ ck ++
    [0x0A, 0, 0, 0x01, 0x0A, 0, 0, 0x02] ++ fcs

/-- Frame A: DF clear, consistent. -/
def frameA : List Byte := frame [0x08, 0x00] 0x45 [0x00, 0x00] [0x54, 0xA3] [0x7E, 0x65, 0x89, 0x95]

/-- Frame A1: frame A after MDF.SET. -/
def frameA1 : List Byte := frame [0x08, 0x00] 0x45 [0x40, 0x00] [0x14, 0xA3] [0xA1, 0x66, 0x79, 0xC4]

/-- Frame H: IHL = 15, so the span would end at offset 73. -/
def frameH : List Byte := frame [0x08, 0x00] 0x4F [0x00, 0x00] [0x54, 0xA3] [0x29, 0x70, 0x29, 0xAB]

/-- Frame H4: frame H lengthened to 73 bytes, one short of its span. -/
def frameH4 : List Byte := frameH.take 34 ++ List.replicate 35 0x00#8 ++ [0x1D, 0xC8, 0x69, 0x56]

/-- Frame J: IHL = 6, the span ends exactly at the end of the buffer, over the FCS. -/
def frameJ : List Byte := frame [0x08, 0x00] 0x46 [0x00, 0x00] [0x54, 0xA3] [0xD1, 0xCC, 0xC4, 0x5F]

/-- Frame I: IHL = 0. -/
def frameI : List Byte := frame [0x08, 0x00] 0x40 [0x00, 0x00] [0x54, 0xA3] [0x55, 0xEF, 0x59, 0x8A]

/-- Frame L: frame A with a wrong checksum and a wrong FCS. -/
def frameL : List Byte := frame [0x08, 0x00] 0x45 [0x00, 0x00] [0xDE, 0xAD] [0, 0, 0, 0]

/-- A frame of frame A's shape with the ARP EtherType. -/
def frameArp : List Byte := frame [0x08, 0x06] 0x45 [0x00, 0x00] [0x54, 0xA3] [0x7E, 0x65, 0x89, 0x95]

/-! ## WellFormed and Decode -/

/-- The one check of WellFormed refuses a byte wider than the command word (R60). -/
theorem test_wf_refuses_wide_byte : commandByteWf 0b00000010#8 = false ∧ commandByteWf 0b10000001#8 = false := by decide

theorem test_wf_accepts_commands : Instr.mdfClr.wf = true ∧ Instr.mdfSet.wf = true := by decide

/-- R61: bit 0 = 0 is MDF.CLR. -/
theorem test_decode_mdfClr : decode [0b00000000#8] = .ok (.mdfClr, []) := by rfl

/-- R61: bit 0 = 1 is MDF.SET. -/
theorem test_decode_mdfSet : decode [0b00000001#8] = .ok (.mdfSet, []) := by rfl

theorem test_decode_wide_byte : decode [0b00000010#8] = .error .widerThanOneBit := by rfl

theorem test_table_words : decodeTableWord 8 0 = some .mdfClr ∧ decodeTableWord 8 1 = some .mdfSet := by decide

/-! ## The two engines (sections 2.1 and 2.2 of the test vectors) -/

/-- K4, K5: an odd trailing byte is a high byte. -/
theorem test_csum_odd : csum16 [0x01] = 0xFEFF#16 ∧ csum16 [0x12, 0x34, 0x56] = 0x97CB#16 := by decide

/-- K7: the second fold is needed. -/
theorem test_csum_second_fold :
    csumWords 0 [0xFF, 0xFF, 0xFF, 0xFF, 0xFF, 0xFF, 0x00, 0x02] = 0x0002FFFF#32 ∧
    csumFold 0x0002FFFF#32 = 0x00010001#32 ∧
    csum16 [0xFF, 0xFF, 0xFF, 0xFF, 0xFF, 0xFF, 0x00, 0x02] = 0xFFFD#16 := by decide

/-- K1, K3: the empty sequence and a sum of 0xFFFF. -/
theorem test_csum_extremes : csum16 [] = 0xFFFF#16 ∧ csum16 [0xFF, 0xFF] = 0x0000#16 := by decide

/-- K9, K10: a header, and the same with its checksum in place. -/
theorem test_csum_header :
    csum16 [0x45, 0, 0, 0x73, 0, 0, 0x40, 0, 0x40, 0x11, 0, 0, 0xC0, 0xA8, 0, 1, 0xC0, 0xA8, 0, 0xC7] = 0xB861#16 ∧
    csum16 [0x45, 0, 0, 0x73, 0, 0, 0x40, 0, 0x40, 0x11, 0xB8, 0x61, 0xC0, 0xA8, 0, 1, 0xC0, 0xA8, 0, 0xC7] = 0x0000#16 := by
  decide

/-- Z6: the check value. -/
theorem test_crc_check_value : crc32 [0x31, 0x32, 0x33, 0x34, 0x35, 0x36, 0x37, 0x38, 0x39] = 0xCBF43926#32 := by
  decide +kernel

/-- Z1, Z2, Z3, Z11. -/
theorem test_crc_values :
    crc32 [] = 0x00000000#32 ∧ crc32 [0x00] = 0xD202EF8D#32 ∧ crc32 [0xFF] = 0xFF000000#32 ∧
    crc32 [0x31, 0x32, 0x33, 0x34, 0x35, 0x36, 0x37, 0x38, 0x39, 0xCB, 0xF4, 0x39, 0x26] = 0x3CC9742C#32 := by
  decide +kernel

/-! ## MDF.SET and MDF.CLR (section 3 of the test vectors) -/

/-- MDF.SET on frame A gives frame A1. -/
theorem test_mdfSet_frameA :
    answers (exec .mdfSet (loaded frameA 1)) (fun t => bytesOf t == frameA1 && t.status == 0#2) = true := by
  decide +kernel

/-- MDF.CLR on frame A1 gives frame A. -/
theorem test_mdfClr_frameA1 :
    answers (exec .mdfClr (loaded frameA1 0)) (fun t => bytesOf t == frameA && t.status == 0#2) = true := by
  decide +kernel

/-- MDF.SET on frame J: the span covers the old FCS; checksum 7d 76, FCS 7d ad 1f c2. -/
theorem test_mdfSet_frameJ :
    answers (exec .mdfSet (loaded frameJ 1)) (fun t => bytesOf t ==
      frame [0x08, 0x00] 0x46 [0x40, 0x00] [0x7D, 0x76] [0x7D, 0xAD, 0x1F, 0xC2]) = true := by decide +kernel

/-- MDF.CLR on frame H: DF already clear, so OK although the span would not fit. -/
theorem test_mdfClr_frameH :
    answers (exec .mdfClr (loaded frameH 0)) (fun t => bytesOf t == frameH && t.status == 0#2) = true := by decide

/-- The first command after reset runs: LEN is 0, so it ends with FRAME_TOO_SMALL (R83). -/
theorem test_first_command_after_reset :
    answers (step (State.reset.withFetchWord 8 1)) (fun t => t.status == 1#2 && t.done && !t.busy) = true := by decide

/-! ## The hypotheses of the statements can be met -/

/-- CommandWordsRoundTrip, FetchWordRunsTableWord. -/
theorem witness_words : Instr.mdfClr.wf = true ∧ decode ([1#8] ++ [7#8]) = .ok (.mdfSet, [7#8]) ∧
    decodeTableWord 8 1 = some .mdfSet ∧ decodeTableWord 1 0 = some .mdfClr := ⟨rfl, rfl, rfl, rfl⟩

/-- StepRunsDecodedCommand: at CHECK_LEN; from an idle block by START; in IDLE. -/
theorem witness_StepRunsDecodedCommand :
    ((loaded frameA 1).phase = .checkLen ∧ decode (loaded frameA 1).commandBytes = .ok (.mdfSet, []) ∧
      Instr.mdfSet.wf = true) ∧
    callerStart State.reset = .next State.reset.started ∧ State.reset.phase = .idle := by
  exact ⟨⟨rfl, rfl, rfl⟩, rfl, rfl⟩

/-- ResetDuringOperationKeepsOtherBytes: offset 19 and 33 lie next to bytes the operation may write; a short buffer. -/
theorem witness_ResetDuringOperation :
    ((loaded frameA 1).phase ≠ .idle ∧ 19 < fcsOff (loaded frameA 1).len ∧ 33 < fcsOff (loaded frameA 1).len ∧
      (loaded frameA 1).len ≤ 38) ∧
    ((loaded [] 1).phase ≠ .idle ∧ (loaded [] 1).len < minLen) := by decide

/-- ShortBufferFails: LEN = 37 and LEN = 0. -/
theorem witness_ShortBufferFails : (loaded (frameA.take 37) 1).len = 37 ∧ (loaded [] 0).len < 38 := by decide

/-- ForeignEtherTypeFails: an ARP frame of 38 bytes. -/
theorem witness_ForeignEtherTypeFails :
    (loaded frameArp 1).len = 38 ∧ (loaded frameArp 1).fb.lookup 12 = some 0x08#8 ∧
    (loaded frameArp 1).fb.lookup 13 = some 0x06#8 ∧ (0x08#8 ++ 0x06#8 : Half) ≠ 0x0800#16 := by decide

/-- UnchangedFrameSucceeds: frame A under MDF.CLR and frame A1 under MDF.SET, both of 38 bytes. -/
theorem witness_UnchangedFrameSucceeds :
    ((loaded frameA 0).len = 38 ∧ (loaded frameA 0).fb.lookup 12 = some 0x08#8 ∧
      (loaded frameA 0).fb.lookup 13 = some 0x00#8 ∧ (loaded frameA 0).fb.lookup 20 = some 0x00#8 ∧
      (loaded frameA 0).fb.lookup 21 = some 0x00#8 ∧
      (0x00#8 ++ 0x00#8 : Half).getLsbD 14 = (Instr.mdfClr.commandBit == 1#1)) ∧
    ((loaded frameA1 1).fb.lookup 20 = some 0x40#8 ∧ (loaded frameA1 1).fb.lookup 21 = some 0x00#8 ∧
      (0x40#8 ++ 0x00#8 : Half).getLsbD 14 = (Instr.mdfSet.commandBit == 1#1)) := by decide

/-- SpanOutOfFrameFails, the first clause: frame H4 of 73 bytes, one short of its span. -/
theorem witness_SpanOutOfFrameFails :
    (loaded frameH4 1).len = 73 ∧ (loaded frameH4 1).fb.lookup 12 = some 0x08#8 ∧
    (loaded frameH4 1).fb.lookup 13 = some 0x00#8 ∧ (loaded frameH4 1).fb.lookup 14 = some 0x4F#8 ∧
    (loaded frameH4 1).fb.lookup 20 = some 0x00#8 ∧ (loaded frameH4 1).fb.lookup 21 = some 0x00#8 ∧
    (0x00#8 ++ 0x00#8 : Half).getLsbD 14 ≠ (Instr.mdfSet.commandBit == 1#1) ∧
    73 < 14 + 4 * ((0x4F#8 : Byte).extractLsb' 0 4).toNat := by decide

/-- SpanOutOfFrameFails, the second clause, and ExitsStoreNothing: frame H, LEN = 38. -/
theorem witness_span_status : ∃ t, exec .mdfSet (loaded frameH 1) = .next t ∧ (t.status == 3#2) = true :=
  answers_exists (by decide)

/-- StatusDecidedInOrder, OperationIsPureFunctionOfFrame, EveryOperationEnds: a filled buffer that holds frame A. -/
theorem witness_filled : (loaded frameA 1).filled ∧ (loaded frameA 1).holds frameA ∧ (loaded [] 0).filled := by
  decide

/-- ChangingOperationResult: frame A, and frame J whose span ends exactly at LEN. -/
theorem witness_ChangingOperationResult :
    ((loaded frameA 1).holds frameA ∧ 38 ≤ frameA.length ∧ frameHalf frameA 12 = 0x0800#16 ∧
      dfBit (frameHalf frameA 20) ≠ Instr.mdfSet.commandBit ∧ 14 + frameSpan frameA ≤ frameA.length) ∧
    ((loaded frameJ 1).holds frameJ ∧ frameHalf frameJ 12 = 0x0800#16 ∧
      dfBit (frameHalf frameJ 20) ≠ Instr.mdfSet.commandBit ∧ 14 + frameSpan frameJ = frameJ.length) := by
  decide

/-- The same for MDF.CLR on frame A1. -/
theorem witness_ChangingOperationResult_clr :
    (loaded frameA1 0).holds frameA1 ∧ frameHalf frameA1 12 = 0x0800#16 ∧
      dfBit (frameHalf frameA1 20) ≠ Instr.mdfClr.commandBit ∧ 14 + frameSpan frameA1 ≤ frameA1.length := by
  decide

/-- RegularFrameIsRepaired, ChecksumMovesByDfWeight, RoundTripRestoresConsistentFrames: frames A and A1 are regular and
consistent, frame L is regular and not consistent. -/
theorem witness_regular :
    regularFrame frameA ∧ consistentFrame frameA ∧ consistentFrame frameA1 ∧ regularFrame frameL ∧ ¬ consistentFrame frameL ∧
    dfBit (frameHalf frameA fragOff) = 0#1 ∧ dfBit (frameHalf frameA1 fragOff) = 1#1 ∧
    dfBit (frameHalf frameL fragOff) ≠ Instr.mdfSet.commandBit ∧ Instr.mdfSet ≠ .mdfClr ∧ (loaded frameL 1).holds frameL ∧
    (loaded frameA 1).holds frameA ∧ (loaded frameA1 0).holds frameA1 := by
  decide +kernel

/-- StoredFcsMatches, OperationFrame, SecondRunChangesNothing, ResultDependsOnInputsOnly, StatusReadableOnlyAfterDone: an
operation that answers a next state, with a change. -/
theorem witness_changing : (loaded frameA 1).needsChange .mdfSet ∧
    ∃ t, exec .mdfSet (loaded frameA 1) = .next t ∧ (t.status == 0#2) = true :=
  ⟨by decide, answers_exists (by decide)⟩

/-- ExitsStoreNothing, the unchanged exit. -/
theorem witness_unchanged_exit : ¬ (loaded frameA 0).needsChange .mdfClr ∧
    ∃ t, exec .mdfClr (loaded frameA 0) = .next t ∧ (t.status == 0#2) = true :=
  ⟨by decide, answers_exists (by decide)⟩

/-- ResultDependsOnInputsOnly: two states that differ in OLD and agree in FB and LEN. -/
theorem witness_ResultDependsOnInputsOnly :
    ((loaded frameA 1).withFlags 7#16 9#16).fb = (loaded frameA 1).fb ∧
    ((loaded frameA 1).withFlags 7#16 9#16).len = (loaded frameA 1).len ∧
    (loaded frameA 1).withFlags 7#16 9#16 ≠ loaded frameA 1 ∧
    ∃ t, exec .mdfSet (loaded frameA 1) = .next t ∧ (t.status == 0#2) = true :=
  ⟨rfl, rfl, by decide, answers_exists (by decide)⟩

/-- OldChecksumAndFcsHaveNoInfluence: frames A and L. -/
theorem witness_OldChecksumAndFcsHaveNoInfluence :
    (loaded frameA 1).holds frameA ∧ (loaded frameL 1).holds frameL ∧ frameA.length = frameL.length ∧
    (∀ a, a < fcsOff frameA.length → a ≠ csumOff → a ≠ csumOff + 1 → frameA[a]? = frameL[a]?) ∧
    minLen ≤ frameA.length ∧ frameHalf frameA etypeOff = etypeIpv4 ∧
    dfBit (frameHalf frameA fragOff) ≠ Instr.mdfSet.commandBit ∧ ipOff + frameSpan frameA ≤ fcsOff frameA.length := by decide

/-- EmptySpanWritesAllOnes: frame I. -/
theorem witness_EmptySpanWritesAllOnes :
    (loaded frameI 1).holds frameI ∧ minLen ≤ frameI.length ∧ frameHalf frameI etypeOff = etypeIpv4 ∧
    dfBit (frameHalf frameI fragOff) ≠ Instr.mdfSet.commandBit ∧ frameIhl frameI = 0 := by decide

/-- OperationRefusedOnlyForUnwrittenByte: a buffer said to be 38 bytes long with nothing written. -/
theorem witness_refused : exec .mdfSet (State.reset.withLen 38) = .refused (.unwrittenByte 12) := by rfl

/-- SequencerRefinesOperation, PhaseWalksInOrder: a started block, and its first phase. -/
theorem witness_sequencer : (loaded frameA 1).phase = .checkLen ∧
    tick (loaded frameA 1) = .next ((loaded frameA 1).withPhase .checkType) := ⟨rfl, rfl⟩

/-- InvariantKeptByStep, InvariantKeptByPhase, EveryOperationEnds, InvariantRulesOutFaults: a started block with a filled buffer has the invariant
and steps. -/
theorem witness_invariant : (loaded frameA 1).Inv ∧ (loaded frameA 1).filled ∧ ∃ t, step (loaded frameA 1) = .next t ∧ t.done = true :=
  ⟨⟨by decide, by decide, by decide, by decide, by decide, by decide, by decide⟩, by decide, answers_exists (by decide)⟩

/-- A block in the last phase of the sequencer has the invariant too. -/
theorem witness_invariant_last_phase : ∃ t, runPhases 10 (loaded frameA 1) = .next t ∧
    (t.phase == .writeFcs && t.busy && t.fb.wf && decide (minLen ≤ t.len ∧ t.new = newFlags t.setDf t.old ∧ t.new ≠ t.old ∧
      t.span = spanOf t.ihl ∧ ipOff + t.span.toNat ≤ t.len)) = true :=
  answers_exists (by decide)

/-- InvariantKeptByCaller, ReachableBlockNeverFaults: the caller places a frame in the block after reset. -/
theorem witness_caller : Reachable State.reset ∧ ∃ t, callerMove (.placeFrame frameA) State.reset = .next t ∧
    (t.len == 38) = true :=
  ⟨.reset, answers_exists (by decide)⟩

/-- InvariantKeptByCaller: an idle block with the invariant, and START. -/
theorem witness_caller_invariant : (State.reset.withLen 38).Inv ∧
    callerMove .start (State.reset.withLen 38) = .next (State.reset.withLen 38).started :=
  ⟨⟨by decide, by decide, by decide, by decide, by decide, by decide, by decide⟩, rfl⟩

/-- StartOnlyWhenIdle, CallerKeptOutWhileBusy, StatusReadableOnlyAfterDone, CallerSeesPureFunction: a busy block and an
idle one. -/
theorem witness_busy : (loaded frameA 1).busy = true ∧ State.reset.busy = false := by decide

/-- CallerSeesPureFunction: an idle block and a frame of an allowed length, which the operation changes and keeps 38 bytes
long. -/
theorem witness_CallerSeesPureFunction :
    State.reset.busy = false ∧ Config.lenAllowed frameA.length = true ∧ 37 < (modifyDfBit frameA 1).1.length := by
  decide

/-- CallerAccessesTakeEffect: an idle block after DONE whose buffer of 38 bytes is written to its last byte; offset 38 is the
first that does not exist; frame A fits. -/
theorem witness_CallerAccessesTakeEffect :
    ((loaded frameA 1).finish .ok).busy = false ∧ ((loaded frameA 1).finish .ok).done = true ∧
    37 < ((loaded frameA 1).finish .ok).len ∧ ((loaded frameA 1).finish .ok).fb.lookup 37 = some 0x95#8 ∧
    ((loaded frameA 1).finish .ok).len ≤ 38 ∧ Config.lenAllowed 0 = true ∧ Config.lenAllowed frameA.length = true := by
  decide

/-- CallerAccessesTakeEffect, the byte nothing has written: the last of an idle buffer of 38 bytes. -/
theorem witness_CallerAccessesTakeEffect_unwritten :
    (State.reset.withLen 38).busy = false ∧ 37 < (State.reset.withLen 38).len ∧
    (State.reset.withLen 38).fb.lookup 37 = none := by decide

/-- MemReadAfterMemWrite at the end of the buffer; NewFlagsForceDfOnly and SpanIsFourTimesIhl on frame A. -/
theorem witness_fields : 34 + 4 ≤ (loaded frameA 1).len ∧ 21 < (loaded frameA 1).len ∧
    (loaded frameA 1).fb.lookup 20 = some 0x00#8 ∧ (loaded frameA 1).fb.lookup 21 = some 0x00#8 ∧
    (loaded frameA 1).fb.lookup 14 = some 0x45#8 ∧ (0x4000#16).getLsbD 14 ≠ (0#1 == 1#1) := by decide

/-- StoredChecksumVerifies: the header of vector K9 with its checksum zero; CsumWordOrderIndependent: two words exchanged. -/
theorem witness_csum :
    (frameHeader (frameSetHalf frameA csumOff 0x0000#16)).length = 20 ∧
    (frameHeader (frameSetHalf frameA csumOff 0x0000#16))[10]? = some 0x00#8 ∧
    (frameHeader (frameSetHalf frameA csumOff 0x0000#16))[11]? = some 0x00#8 ∧
    (∃ b ∈ frameHeader (frameSetHalf frameA csumOff 0x0000#16), b ≠ 0x00#8) ∧
    [((1 : Byte), (2 : Byte)), (3, 4)].Perm [(3, 4), (1, 2)] ∧
    ((([] : List Byte).length + 1) / 2 ≤ 65537) := by decide

/-- CrcIsAffine, CrcSeesEverySingleBit: two sequences of one length; the highest bit of a byte. -/
theorem witness_crc : [0x01#8, 0x02#8].length = [0x03#8, 0x04#8].length ∧ (7 : Nat) < 8 := by decide

end Sys2Proof.Tests
end

section
/-! The accesses of a span of FB: what MemWrite leaves in it byte by byte, and what MemRead makes of such bytes
(spec/00_scope.md R9; spec/20_memory.md R40, R45). -/

namespace Sys2Proof.Machine

/-! ## MemRead after MemWrite -/

/-- A write inside the buffer is answered. -/
theorem State.memWrite_answers {s : State} {a n : Nat} (v : BitVec (8 * n)) (h : a + n ≤ s.len) :
    ∃ t, s.memWrite a n v = .next t := by
  cases hw : s.memWrite a n v with
  | next t => exact ⟨t, rfl⟩
  | fault r => have := State.memWrite_eq_fault hw; omega
  | refused r => exact absurd hw (State.memWrite_not_refused s a n v r)

/-- Every byte of a written span: the most significant byte of the value is at the lowest offset (R9). -/
theorem State.memWrite_lookup {s t : State} {a n : Nat} {v : BitVec (8 * n)} (h : s.memWrite a n v = .next t)
    {k : Nat} (hk : k < n) : t.fb.lookup (a + k) = some (v.extractLsb' (8 * (n - 1 - k)) 8) := by
  induction n generalizing s a k with
  | zero => omega
  | succ n ih =>
    simp only [State.memWrite, andThen_eq_next, State.writeByte_eq_next] at h
    obtain ⟨u, ⟨_, rfl⟩, hrest⟩ := h
    cases k with
    | zero =>
      obtain ⟨-, hframe, -⟩ := State.memWrite_next_frame hrest
      simp [hframe a (by omega)]
    | succ k =>
      have hbyte := ih hrest (show k < n by omega)
      rw [extractLsb'_setWidth_low v (by omega)] at hbyte
      rw [show a + (k + 1) = a + 1 + k by omega, hbyte, show n + 1 - 1 - (k + 1) = n - 1 - k by omega]

/-- A part of a part of a value is a part of the value. -/
theorem extractLsb'_of_extractLsb' {w i j l m : Nat} (v : BitVec w) (h : j + l ≤ m) :
    (v.extractLsb' i m).extractLsb' j l = v.extractLsb' (i + j) l := by
  ext b hb
  simp only [BitVec.getElem_extractLsb', BitVec.getLsbD_extractLsb', Nat.add_assoc]
  simp; omega

/-- A read of a span whose bytes are those of a value, the most significant first, answers the value (R9). -/
theorem State.memRead_of_bytes {s : State} {a n : Nat} {v : BitVec (8 * n)} (hlen : a + n ≤ s.len)
    (h : ∀ k, k < n → s.fb.lookup (a + k) = some (v.extractLsb' (8 * (n - 1 - k)) 8)) :
    s.memRead a n = .next v := by
  induction n with
  | zero => simp [State.memRead, BitVec.eq_nil v]
  | succ n ih =>
    have hhigh : s.memRead a n = .next (v.extractLsb' 8 (8 * n)) := by
      refine ih (by omega) fun k hk => ?_
      rw [h k (by omega), extractLsb'_of_extractLsb' v (by omega),
        show 8 * (n + 1 - 1 - k) = 8 + 8 * (n - 1 - k) by omega]
    have hlow : s.readByte (a + n) = .next (v.extractLsb' 0 8) :=
      State.readByte_eq_next.mpr ⟨by omega, by simpa using h n (by omega)⟩
    have hglue : v.extractLsb' 8 (8 * n) ++ v.extractLsb' 0 8 = v.extractLsb' 0 (8 * n + 8) :=
      BitVec.extractLsb'_append_extractLsb'_eq_extractLsb' rfl
    simp only [State.memRead, hhigh, hlow, andThen_next, hglue]
    exact congrArg _ BitVec.extractLsb'_eq_self

/-- Settles O39: the bytes that `memWrite_lookup` says stand in the span are what `memRead_of_bytes` asks for. -/
theorem memReadAfterMemWrite : Obligations.MemReadAfterMemWrite := by
  intro s a n v hlen
  obtain ⟨t, ht⟩ := State.memWrite_answers v hlen
  obtain ⟨hother, hframe, -⟩ := State.memWrite_next_frame ht
  have hlen' : t.len = s.len := by rw [hother]; rfl
  exact ⟨t, ht, State.memRead_of_bytes (by omega) fun k hk => State.memWrite_lookup ht hk, hframe⟩

end Sys2Proof.Machine
end

section
/-! What the caller may do, and the step that START leads to (spec/10_state.md R24, R27, R32). -/

namespace Sys2Proof.Machine

/-! ## The command of a step -/

/-- The command bit of the command a word names is that word (R60, R61). -/
@[simp] theorem commandBit_decodeCommand (d : BitVec 1) : (decodeCommand d).commandBit = d := by
  rcases BitVec.eq_zero_or_eq_one d with rfl | rfl <;> rfl

/-- SET_DF as a byte decodes to the command in SET_DF (R60, R61; log 17). -/
theorem State.decode_commandBytes (s : State) : decode s.commandBytes = .ok (s.command, []) := by
  unfold State.commandBytes State.command
  rcases BitVec.eq_zero_or_eq_one s.setDf with h | h <;> rw [h] <;> rfl

/-- In IDLE a step changes nothing (R27). -/
theorem step_of_idle {s : State} (h : s.phase = .idle) : step s = .next s := by
  unfold step; rw [h]

/-- At CHECK_LEN a step runs the command in SET_DF (R12, R27). -/
theorem step_of_checkLen {s : State} (h : s.phase = .checkLen) : step s = exec s.command s := by
  unfold step; rw [h]

/-- Settles O3: `decode_commandBytes` identifies the decoded command, and `callerStart_eq_next` the state after START. -/
theorem stepRunsDecodedCommand : Obligations.StepRunsDecodedCommand := by
  refine ⟨fun s i hphase hdec _ => ?_, fun s t hstart => ?_, fun s => step_of_idle⟩
  · have hcmd : s.command = i := by simpa [s.decode_commandBytes] using hdec
    rw [step_of_checkLen hphase, hcmd]
  · obtain ⟨-, rfl⟩ := callerStart_eq_next.mp hstart
    exact ⟨rfl, State.decode_commandBytes _, step_of_checkLen rfl⟩

/-! ## The caller's accesses -/

/-- Settles O55: each access by the law that says what it answers, and the two writes of FB by what a store leaves. -/
theorem callerAccessesTakeEffect : Obligations.CallerAccessesTakeEffect := by
  refine ⟨fun s => ⟨rfl, rfl, rfl⟩, fun s hidle => ⟨fun a b => ?_, fun n _ => ?_, fun d => ?_, fun bs _ => ?_,
    fun a b ha hb => ?_, fun a ha hnone => ?_, fun a ha => ?_, fun hdone => ?_⟩⟩
  · exact ⟨_, callerWriteByte_eq_next.mpr ⟨hidle, rfl⟩, rfl, Memory.lookup_store_same _ _ _,
      fun c hc => Memory.lookup_store_of_ne _ _ hc⟩
  · exact callerWriteLen_eq_next.mpr ⟨hidle, rfl⟩
  · exact callerWriteSetDf_eq_next.mpr ⟨hidle, rfl⟩
  · refine ⟨_, callerPlaceFrame_eq_next.mpr ⟨hidle, rfl⟩, rfl, State.placed_holds s bs, fun c hc => ?_⟩
    rw [State.withLen_fb, State.withFb_fb, Memory.lookup_storeAll, if_neg (by omega)]
  · exact callerReadByte_eq_next.mpr ⟨hidle, ha, hb⟩
  · exact callerReadByte_eq_refused.mpr (.inr ⟨hidle, ha, hnone, rfl⟩)
  · exact callerReadByte_eq_fault.mpr ⟨hidle, ha, rfl⟩
  · exact callerReadStatus_eq_next.mpr ⟨hdone, hidle, rfl⟩

end Sys2Proof.Machine
end

section
/-! The sequencer phase by phase: PHASE is no input of any step of R80, so the phases from CHECK_LEN to WRITE_FCS compose
to the one-transition operation (spec/10_state.md R27; spec/40_df_mutator.md R80). -/

namespace Sys2Proof.Machine

/-! ## The steps of R80 do not look at PHASE -/

@[simp] theorem State.withPhase_withPhase (s : State) (p q : Phase) : (s.withPhase p).withPhase q = s.withPhase q := rfl

theorem State.withPhase_of_phase {s : State} {p : Phase} (h : s.phase = p) : s.withPhase p = s := by
  subst h; rfl

/-- A part of the operation that neither reads nor writes PHASE: it does the same from whatever phase it is begun. -/
def PhaseBlind (op : State → Host.Outcome State Fault Refusal) : Prop :=
  ∀ (s : State) (p : Phase), op (s.withPhase p) = andThen (op s) fun t => .next (t.withPhase p)

theorem State.memRead_withPhase (s : State) (p : Phase) (a n : Nat) : (s.withPhase p).memRead a n = s.memRead a n :=
  State.memRead_congr (s.withPhase_fb p) (s.withPhase_len p) a n

theorem State.readSpan_withPhase (s : State) (p : Phase) (a n : Nat) :
    (s.withPhase p).readSpan a n = s.readSpan a n :=
  State.readSpan_congr (s.withPhase_fb p) (s.withPhase_len p) a n

theorem State.readEtherType_withPhase (s : State) (p : Phase) : (s.withPhase p).readEtherType = s.readEtherType :=
  State.memRead_withPhase s p _ _

theorem State.writeByte_phaseBlind (a : Nat) (b : Byte) : PhaseBlind fun s => s.writeByte a b := by
  intro s p
  by_cases h : a < s.len <;> simp [State.writeByte, h, State.withFb_withPhase]

theorem State.memWrite_withPhase (s : State) (p : Phase) (a n : Nat) (v : BitVec (8 * n)) :
    (s.withPhase p).memWrite a n v = andThen (s.memWrite a n v) fun t => .next (t.withPhase p) := by
  induction n generalizing s a with
  | zero => rfl
  | succ n ih =>
    simp only [State.memWrite, State.writeByte_phaseBlind a _ s p, andThen_assoc, andThen_next, ih]

theorem State.loadFlags_phaseBlind : PhaseBlind fun s => s.loadFlags s.setDf := by
  intro s p
  simp only [State.loadFlags, State.memRead_withPhase, andThen_assoc, andThen_next]; rfl

theorem State.loadSpan_phaseBlind : PhaseBlind State.loadSpan := by
  intro s p
  simp only [State.loadSpan, State.readByte_withPhase, andThen_assoc, andThen_next]; rfl

theorem State.runCsum_phaseBlind : PhaseBlind State.runCsum := by
  intro s p
  simp only [State.runCsum, State.readSpan_withPhase, andThen_assoc, andThen_next]; rfl

theorem State.runCrc_phaseBlind : PhaseBlind State.runCrc := by
  intro s p
  simp only [State.runCrc, State.readSpan_withPhase, andThen_assoc, andThen_next]; rfl

theorem State.writeFlags_phaseBlind : PhaseBlind State.writeFlags := fun s p => s.memWrite_withPhase p _ _ _

theorem State.zeroCsum_phaseBlind : PhaseBlind State.zeroCsum := fun s p => s.memWrite_withPhase p _ _ _

theorem State.writeCsum_phaseBlind : PhaseBlind State.writeCsum := fun s p => s.memWrite_withPhase p _ _ _

theorem State.writeFcs_phaseBlind : PhaseBlind State.writeFcs := fun s p => s.memWrite_withPhase p _ _ _

/-! ## One phase, then the others -/

/-- In IDLE no phase moves anything, however many are run (R27). -/
theorem runPhases_of_idle (n : Nat) {s : State} (h : s.phase = .idle) : runPhases n s = .next s := by
  induction n with
  | zero => rfl
  | succ n ih => simp [runPhases, tick, h, ih]

/-- After an exit of R80 nothing moves any more. -/
@[simp] theorem runPhases_finish (n : Nat) (s : State) (c : Status) : runPhases n (s.finish c) = .next (s.finish c) :=
  runPhases_of_idle n rfl

section
variable (n : Nat) (s : State)

theorem runPhases_checkLen : runPhases (n + 1) (s.withPhase .checkLen) =
    if s.len < minLen then .next (s.finish .frameTooSmall) else runPhases n (s.withPhase .checkType) := by
  by_cases h : s.len < minLen <;> simp [runPhases, tick, h]

theorem runPhases_checkType : runPhases (n + 1) (s.withPhase .checkType) =
    andThen s.readEtherType fun et =>
      if et ≠ etypeIpv4 then .next (s.finish .notIpv4) else runPhases n (s.withPhase .flags) := by
  simp only [runPhases, tick, State.withPhase_phase, State.readEtherType_withPhase, andThen_assoc, andThen_next]
  congr 1; funext et
  by_cases h : et = etypeIpv4 <;> simp [h]

/-- A phase that does one part of the operation and goes on: that part, then the phases after it. -/
theorem runPhases_of_phaseBlind {op : State → Host.Outcome State Fault Refusal} {p q : Phase} (hop : PhaseBlind op)
    (htick : tick (s.withPhase p) = andThen (op (s.withPhase p)) fun t => .next (t.withPhase q)) :
    runPhases (n + 1) (s.withPhase p) = andThen (op s) fun t => runPhases n (t.withPhase q) := by
  simp only [runPhases, htick, hop s p, andThen_assoc, andThen_next, State.withPhase_withPhase]

theorem runPhases_flags : runPhases (n + 1) (s.withPhase .flags) =
    andThen (s.loadFlags s.setDf) fun t => runPhases n (t.withPhase .unchangedTest) :=
  runPhases_of_phaseBlind n s State.loadFlags_phaseBlind rfl

theorem runPhases_unchangedTest : runPhases (n + 1) (s.withPhase .unchangedTest) =
    if s.new = s.old then .next (s.finish .ok) else runPhases n (s.withPhase .spanCheck) := by
  by_cases h : s.new = s.old <;> simp [runPhases, tick, h]

theorem runPhases_spanCheck : runPhases (n + 1) (s.withPhase .spanCheck) =
    andThen s.loadSpan fun t =>
      if t.spanLeavesFrame then .next (t.finish .spanOutOfFrame) else runPhases n (t.withPhase .writeFlags) := by
  simp only [runPhases, tick, State.withPhase_phase, State.loadSpan_phaseBlind s, andThen_assoc, andThen_next]
  congr 1; funext t
  have hspan : (t.withPhase .spanCheck).spanLeavesFrame = t.spanLeavesFrame := rfl
  by_cases h : t.spanLeavesFrame <;> simp [h, hspan]

theorem runPhases_writeFlags : runPhases (n + 1) (s.withPhase .writeFlags) =
    andThen s.writeFlags fun t => runPhases n (t.withPhase .zeroCsum) :=
  runPhases_of_phaseBlind n s State.writeFlags_phaseBlind rfl

theorem runPhases_zeroCsum : runPhases (n + 1) (s.withPhase .zeroCsum) =
    andThen s.zeroCsum fun t => runPhases n (t.withPhase .csum) :=
  runPhases_of_phaseBlind n s State.zeroCsum_phaseBlind rfl

theorem runPhases_csum : runPhases (n + 1) (s.withPhase .csum) =
    andThen s.runCsum fun t => runPhases n (t.withPhase .writeCsum) :=
  runPhases_of_phaseBlind n s State.runCsum_phaseBlind rfl

theorem runPhases_writeCsum : runPhases (n + 1) (s.withPhase .writeCsum) =
    andThen s.writeCsum fun t => runPhases n (t.withPhase .crc) :=
  runPhases_of_phaseBlind n s State.writeCsum_phaseBlind rfl

theorem runPhases_crc : runPhases (n + 1) (s.withPhase .crc) =
    andThen s.runCrc fun t => runPhases n (t.withPhase .writeFcs) :=
  runPhases_of_phaseBlind n s State.runCrc_phaseBlind rfl

theorem runPhases_writeFcs : runPhases (n + 1) (s.withPhase .writeFcs) =
    andThen s.writeFcs fun t => .next t.returnOk := by
  simp only [runPhases, tick, State.withPhase_phase, State.writeFcs_phaseBlind s, andThen_assoc, andThen_next,
    State.returnOk_eq_finish, State.withPhase_finish, runPhases_finish]

/-! ## The phases composed -/

/-- From WRITE_FLAGS the six phases are S6 to S12. -/
theorem runPhases_eq_rewrite : runPhases (n + 6) (s.withPhase .writeFlags) = s.rewrite := by
  simp only [State.rewrite, runPhases_writeFlags, runPhases_zeroCsum, runPhases_csum, runPhases_writeCsum,
    runPhases_crc, runPhases_writeFcs]

/-- From CHECK_LEN the eleven phases are the whole operation, run with the command in SET_DF. -/
theorem runPhases_eq_mdf : runPhases 11 (s.withPhase .checkLen) = mdf s.setDf s := by
  simp only [mdf, runPhases_checkLen, runPhases_checkType, runPhases_flags, runPhases_unchangedTest,
    runPhases_spanCheck, runPhases_eq_rewrite 0, State.raise_eq_finish, State.returnOk_eq_finish]

end

/-- The command in SET_DF, run as one transition, is MDF with that bit (R60, R80). -/
theorem exec_command (s : State) : exec s.command s = mdf s.setDf s := by
  rw [exec_eq_mdf, State.command, commandBit_decodeCommand]

/-- Settles O27: `runPhases_eq_mdf` at CHECK_LEN, and the command in SET_DF is MDF with that bit. -/
theorem sequencerRefinesOperation : Obligations.SequencerRefinesOperation := by
  intro s hphase
  calc resume s = runPhases 11 (s.withPhase .checkLen) := by rw [State.withPhase_of_phase hphase]; rfl
    _ = mdf s.setDf s := runPhases_eq_mdf s
    _ = exec s.command s := (exec_command s).symm

end Sys2Proof.Machine
end

section
/-! The sequencer comes to IDLE: what one phase can do, that it keeps the invariant and a filled buffer, that it is
answered, and that every phase brings the end nearer (spec/10_state.md R27; spec/60_exceptions.md R128). -/

namespace Sys2Proof.Machine

/-! ## What one phase can do -/

section
variable {α β : Type}

theorem andThen_next_eq_fault {x : Host.Outcome α Fault Refusal} {f : α → β} {r : Fault} :
    (andThen x fun a => .next (f a)) = .fault r ↔ x = .fault r := by
  cases x <;> simp

theorem andThen_next_eq_refused {x : Host.Outcome α Fault Refusal} {f : α → β} {r : Refusal} :
    (andThen x fun a => .next (f a)) = .refused r ↔ x = .refused r := by
  cases x <;> simp

end

/-- A phase of the sequencer that answers, case by case: the tests of R80 with their two sides, and the steps. -/
inductive TickMove (s : State) : State → Prop where
  | idle : s.phase = .idle → TickMove s s
  | tooSmall : s.phase = .checkLen → s.len < 38 → TickMove s (s.finish .frameTooSmall)
  | longEnough : s.phase = .checkLen → 38 ≤ s.len → TickMove s (s.withPhase .checkType)
  | foreign {et : Half} : s.phase = .checkType → s.readEtherType = .next et → et ≠ etypeIpv4 →
      TickMove s (s.finish .notIpv4)
  | ipv4 : s.phase = .checkType → s.readEtherType = .next etypeIpv4 → TickMove s (s.withPhase .flags)
  | loadFlags {t : State} : s.phase = .flags → s.loadFlags s.setDf = .next t → TickMove s (t.withPhase .unchangedTest)
  | unchanged : s.phase = .unchangedTest → s.new = s.old → TickMove s (s.finish .ok)
  | changed : s.phase = .unchangedTest → s.new ≠ s.old → TickMove s (s.withPhase .spanCheck)
  | spanLeaves {t : State} : s.phase = .spanCheck → s.loadSpan = .next t → t.len < 14 + t.span.toNat →
      TickMove s (t.finish .spanOutOfFrame)
  | spanFits {t : State} : s.phase = .spanCheck → s.loadSpan = .next t → 14 + t.span.toNat ≤ t.len →
      TickMove s (t.withPhase .writeFlags)
  | writeFlags {t : State} : s.phase = .writeFlags → s.writeFlags = .next t → TickMove s (t.withPhase .zeroCsum)
  | zeroCsum {t : State} : s.phase = .zeroCsum → s.zeroCsum = .next t → TickMove s (t.withPhase .csum)
  | csum {t : State} : s.phase = .csum → s.runCsum = .next t → TickMove s (t.withPhase .writeCsum)
  | writeCsum {t : State} : s.phase = .writeCsum → s.writeCsum = .next t → TickMove s (t.withPhase .crc)
  | crc {t : State} : s.phase = .crc → s.runCrc = .next t → TickMove s (t.withPhase .writeFcs)
  | writeFcs {t : State} : s.phase = .writeFcs → s.writeFcs = .next t → TickMove s (t.finish .ok)

/-- Everything a phase can do when it answers. -/
theorem tick_next_cases {s t : State} (h : tick s = .next t) : TickMove s t := by
  cases hp : s.phase <;> simp only [tick, hp, andThen_eq_next, Host.Outcome.next.injEq] at h
  case idle => exact h ▸ .idle hp
  case checkLen =>
    split at h <;> subst h
    · next hlt => exact .tooSmall hp hlt
    · next hge => exact .longEnough hp (Nat.le_of_not_lt hge)
  case checkType =>
    obtain ⟨et, het, h⟩ := h
    split at h <;> subst h
    · next hne => exact .foreign hp het hne
    · next heq => exact .ipv4 hp (not_not.mp heq ▸ het)
  case flags => obtain ⟨u, hu, rfl⟩ := h; exact .loadFlags hp hu
  case unchangedTest =>
    split at h <;> subst h
    · next heq => exact .unchanged hp heq
    · next hne => exact .changed hp hne
  case spanCheck =>
    obtain ⟨u, hu, h⟩ := h
    split at h <;> subst h
    · next hout => exact .spanLeaves hp hu ((spanLeavesFrame_iff u).mp hout)
    · next hin => exact .spanFits hp hu (Nat.le_of_not_lt fun hlt => hin ((spanLeavesFrame_iff u).mpr hlt))
  case writeFlags => obtain ⟨u, hu, rfl⟩ := h; exact .writeFlags hp hu
  case zeroCsum => obtain ⟨u, hu, rfl⟩ := h; exact .zeroCsum hp hu
  case csum => obtain ⟨u, hu, rfl⟩ := h; exact .csum hp hu
  case writeCsum => obtain ⟨u, hu, rfl⟩ := h; exact .writeCsum hp hu
  case crc => obtain ⟨u, hu, rfl⟩ := h; exact .crc hp hu
  case writeFcs => obtain ⟨u, hu, rfl⟩ := h; exact .writeFcs hp hu

/-! ## The invariant -/

theorem State.runCsum_eq_next {s t : State} (h : s.runCsum = .next t) :
    ∃ hdr : List Byte, t = s.withCsum (csumAcc hdr) (csumResult (csumAcc hdr)) := by
  simp only [State.runCsum, andThen_eq_next, Host.Outcome.next.injEq] at h
  obtain ⟨hdr, -, rfl⟩ := h
  exact ⟨hdr, rfl⟩

theorem State.runCrc_eq_next {s t : State} (h : s.runCrc = .next t) :
    ∃ body : List Byte, t = s.withCrcreg (crcRun crcInit body) := by
  simp only [State.runCrc, andThen_eq_next, Host.Outcome.next.injEq] at h
  obtain ⟨body, -, rfl⟩ := h
  exact ⟨body, rfl⟩

/-- In IDLE the invariant asks for the canonical form of FB only. -/
theorem State.Inv.finish {s : State} (hwf : s.fb.wf = true) (c : Status) : (s.finish c).Inv where
  memoryWf := hwf
  busyIff := by simp
  doneIdle := by simp
  longEnough := by simp [Phase.pastLenCheck]
  flagsLoaded := by simp [Phase.pastFlags]
  changeNeeded := by simp [Phase.pastUnchangedTest]
  spanFits := by simp [Phase.pastSpanCheck]

/-- A phase that goes on keeps the invariant when what the tests before the next phase establish stands. -/
theorem State.Inv.goOn {s : State} (hi : s.Inv) (hp : s.phase ≠ .idle) {t : State} {q : Phase} (hq : q ≠ .idle)
    (hwf : t.fb.wf = true) (hbusy : t.busy = s.busy) (hdone : t.done = s.done)
    (hlong : q.pastLenCheck = true → minLen ≤ t.len)
    (hflags : q.pastFlags = true → t.new = newFlags t.setDf t.old)
    (hchange : q.pastUnchangedTest = true → t.new ≠ t.old)
    (hspan : q.pastSpanCheck = true → t.span = spanOf t.ihl ∧ ipOff + t.span.toNat ≤ t.len) :
    (t.withPhase q).Inv where
  memoryWf := hwf
  busyIff := by simp [hbusy, hi.busyIff, hp, hq]
  doneIdle := by simpa [hbusy, hdone] using hi.doneIdle
  longEnough := hlong
  flagsLoaded := hflags
  changeNeeded := hchange
  spanFits := hspan

/-- Past the span check every test has been passed. -/
theorem Phase.past_of_pastSpanCheck {p : Phase} (h : p.pastSpanCheck = true) :
    p ≠ .idle ∧ p.pastLenCheck = true ∧ p.pastFlags = true ∧ p.pastUnchangedTest = true := by
  revert h; cases p <;> decide

/-- The phases after the span check keep the invariant: every test has been passed already. -/
theorem State.Inv.goOn_of_pastSpanCheck {s : State} (hi : s.Inv) (hp : s.phase.pastSpanCheck = true) {q : Phase}
    (hq : q ≠ .idle) : (s.withPhase q).Inv := by
  obtain ⟨hbusy, hlong, hflags, hchange⟩ := Phase.past_of_pastSpanCheck hp
  exact hi.goOn hbusy hq hi.memoryWf rfl rfl (fun _ => hi.longEnough hlong) (fun _ => hi.flagsLoaded hflags)
    (fun _ => hi.changeNeeded hchange) (fun _ => hi.spanFits hp)

theorem State.Inv.withFb {s : State} (hi : s.Inv) {m : Memory} (hwf : m.wf = true) : (s.withFb m).Inv :=
  ⟨hwf, hi.busyIff, hi.doneIdle, hi.longEnough, hi.flagsLoaded, hi.changeNeeded, hi.spanFits⟩

theorem State.Inv.withCsum {s : State} (hi : s.Inv) (acc : Word) (ck : Half) : (s.withCsum acc ck).Inv :=
  ⟨hi.memoryWf, hi.busyIff, hi.doneIdle, hi.longEnough, hi.flagsLoaded, hi.changeNeeded, hi.spanFits⟩

theorem State.Inv.withCrcreg {s : State} (hi : s.Inv) (r : Word) : (s.withCrcreg r).Inv :=
  ⟨hi.memoryWf, hi.busyIff, hi.doneIdle, hi.longEnough, hi.flagsLoaded, hi.changeNeeded, hi.spanFits⟩

/-- A write of FB keeps the invariant and the phase. -/
theorem State.Inv.memWrite {s t : State} (hi : s.Inv) {a n : Nat} {v : BitVec (8 * n)} (h : s.memWrite a n v = .next t) :
    t.Inv ∧ t.phase = s.phase := by
  obtain ⟨hother, -, hwf⟩ := State.memWrite_next_frame h
  rw [hother]
  exact ⟨hi.withFb (hwf hi.memoryWf), rfl⟩

/-- A phase that writes FB after the span check keeps the invariant. -/
theorem State.Inv.goOn_of_memWrite {s t : State} (hi : s.Inv) (hp : s.phase.pastSpanCheck = true) {q : Phase}
    (hq : q ≠ .idle) {a n : Nat} {v : BitVec (8 * n)} (h : s.memWrite a n v = .next t) : (t.withPhase q).Inv := by
  obtain ⟨hinv, hphase⟩ := hi.memWrite h
  exact hinv.goOn_of_pastSpanCheck (hphase ▸ hp) hq

/-- Every phase of the sequencer keeps the invariant. -/
theorem tick_keeps_inv {s t : State} (hi : s.Inv) (h : tick s = .next t) : t.Inv := by
  cases tick_next_cases h with
  | idle => exact hi
  | tooSmall | foreign | unchanged => exact .finish hi.memoryWf _
  | longEnough hp hlen =>
    exact hi.goOn (by simp [hp]) nofun hi.memoryWf rfl rfl (fun _ => hlen) nofun nofun nofun
  | ipv4 hp =>
    exact hi.goOn (by simp [hp]) nofun hi.memoryWf rfl rfl (fun _ => hi.longEnough (hp ▸ rfl))
      nofun nofun nofun
  | loadFlags hp hload =>
    obtain ⟨-, _, _, -, -, rfl⟩ := State.loadFlags_eq_next.mp hload
    exact hi.goOn (by simp [hp]) nofun hi.memoryWf rfl rfl (fun _ => hi.longEnough (hp ▸ rfl))
      (fun _ => rfl) nofun nofun
  | changed hp hne =>
    exact hi.goOn (by simp [hp]) nofun hi.memoryWf rfl rfl (fun _ => hi.longEnough (hp ▸ rfl))
      (fun _ => hi.flagsLoaded (hp ▸ rfl)) (fun _ => hne) nofun
  | spanLeaves hp hload =>
    obtain ⟨-, b, -, rfl⟩ := State.loadSpan_eq_next.mp hload
    have hwf : (s.withSpan (ihlOf b) (spanOf (ihlOf b))).fb.wf = true := hi.memoryWf
    exact .finish hwf _
  | spanFits hp hload hfits =>
    obtain ⟨-, b, -, rfl⟩ := State.loadSpan_eq_next.mp hload
    exact hi.goOn (by simp [hp]) nofun hi.memoryWf rfl rfl (fun _ => hi.longEnough (hp ▸ rfl))
      (fun _ => hi.flagsLoaded (hp ▸ rfl))
      (fun _ => hi.changeNeeded (hp ▸ rfl)) (fun _ => ⟨rfl, hfits⟩)
  | writeFlags hp hw | zeroCsum hp hw | writeCsum hp hw =>
    exact hi.goOn_of_memWrite (hp ▸ rfl) (by simp) hw
  | csum hp hsum =>
    obtain ⟨hdr, rfl⟩ := State.runCsum_eq_next hsum
    exact (hi.withCsum _ _).goOn_of_pastSpanCheck (hp ▸ rfl) (by simp)
  | crc hp hcrc =>
    obtain ⟨body, rfl⟩ := State.runCrc_eq_next hcrc
    exact (hi.withCrcreg _).goOn_of_pastSpanCheck (hp ▸ rfl) (by simp)
  | writeFcs hp hw => exact .finish (hi.memWrite hw).1.memoryWf _

/-! ## A filled buffer -/

theorem State.writeByte_keeps_filled {s t : State} {a : Nat} {b : Byte} (hf : s.filled)
    (h : s.writeByte a b = .next t) : t.filled := by
  obtain ⟨-, rfl⟩ := State.writeByte_eq_next.mp h
  intro c hc
  rw [State.withFb_fb, Memory.lookup_store]
  split
  · rfl
  · exact hf c hc

theorem State.memWrite_keeps_filled {s t : State} {a n : Nat} {v : BitVec (8 * n)} (hf : s.filled)
    (h : s.memWrite a n v = .next t) : t.filled := by
  induction n generalizing s a with
  | zero => simp only [State.memWrite, Host.Outcome.next.injEq] at h; exact h ▸ hf
  | succ n ih =>
    obtain ⟨u, hu, hrest⟩ := andThen_eq_next.mp h
    exact ih (State.writeByte_keeps_filled hf hu) hrest

/-- Every phase of the sequencer leaves a filled buffer filled: no byte loses its value, and LEN stays. -/
theorem tick_keeps_filled {s t : State} (hf : s.filled) (h : tick s = .next t) : t.filled := by
  cases tick_next_cases h with
  | idle | tooSmall | longEnough | foreign | ipv4 | unchanged | changed => exact hf
  | loadFlags _ hload => obtain ⟨-, _, _, -, -, rfl⟩ := State.loadFlags_eq_next.mp hload; exact hf
  | spanLeaves _ hload | spanFits _ hload => obtain ⟨-, _, -, rfl⟩ := State.loadSpan_eq_next.mp hload; exact hf
  | csum _ hsum => obtain ⟨_, rfl⟩ := State.runCsum_eq_next hsum; exact hf
  | crc _ hcrc => obtain ⟨_, rfl⟩ := State.runCrc_eq_next hcrc; exact hf
  | writeFlags _ hw | zeroCsum _ hw | writeCsum _ hw | writeFcs _ hw =>
    have hfilled := State.memWrite_keeps_filled hf hw
    exact hfilled

/-! ## A phase is answered -/

/-- With the invariant no phase reaches outside the buffer (R48). -/
theorem tick_ne_fault {s : State} (hi : s.Inv) (r : Fault) : tick s ≠ .fault r := by
  intro h
  have hlong (hp : s.phase.pastLenCheck = true) : 38 ≤ s.len := hi.longEnough hp
  have hspan (hp : s.phase.pastSpanCheck = true) : 14 + s.span.toNat ≤ s.len := (hi.spanFits hp).2
  cases hp : s.phase <;> rw [hp] at hlong hspan <;>
    simp only [tick, hp, andThen_next_eq_fault, reduceCtorEq] at h
  case checkType =>
    have hout := State.memRead_eq_fault h
    simp only [etypeOff] at hout; have := hlong rfl; omega
  case flags =>
    simp only [State.loadFlags, andThen_next_eq_fault] at h
    have hout := State.memRead_eq_fault h
    simp only [fragOff] at hout; have := hlong rfl; omega
  case spanCheck =>
    simp only [State.loadSpan, andThen_next_eq_fault] at h
    obtain ⟨hout, -⟩ := State.readByte_eq_fault.mp h
    simp only [ipOff] at hout; have := hlong rfl; omega
  case writeFlags =>
    have hout := State.memWrite_eq_fault h
    simp only [fragOff] at hout; have := hlong rfl; omega
  case zeroCsum | writeCsum =>
    have hout := State.memWrite_eq_fault h
    simp only [csumOff] at hout; have := hlong rfl; omega
  case csum =>
    simp only [State.runCsum, andThen_next_eq_fault] at h
    have hout := State.readSpan_eq_fault h
    simp only [ipOff] at hout; have := hspan rfl; omega
  case crc =>
    simp only [State.runCrc, andThen_next_eq_fault] at h
    have hout := State.readSpan_eq_fault h
    simp only [fcsOff] at hout; omega
  case writeFcs =>
    have hout := State.memWrite_eq_fault h
    simp only [fcsOff, fcsLen] at hout; have := hlong rfl; omega

/-- A phase is refused for nothing but a byte of the buffer that nothing has written (R30, U4). -/
theorem tick_eq_refused {s : State} {r : Refusal} (h : tick s = .refused r) :
    ∃ a, a < s.len ∧ s.fb.lookup a = none ∧ r = .unwrittenByte a := by
  cases hp : s.phase <;>
    simp only [tick, hp, andThen_next_eq_refused, reduceCtorEq] at h
  case checkType => exact State.memRead_eq_refused h
  case flags =>
    simp only [State.loadFlags, andThen_next_eq_refused] at h
    exact State.memRead_eq_refused h
  case spanCheck =>
    simp only [State.loadSpan, andThen_next_eq_refused] at h
    exact ⟨_, State.readByte_eq_refused.mp h⟩
  case csum =>
    simp only [State.runCsum, andThen_next_eq_refused] at h
    exact State.readSpan_eq_refused h
  case crc =>
    simp only [State.runCrc, andThen_next_eq_refused] at h
    exact State.readSpan_eq_refused h
  case writeFlags | zeroCsum | writeCsum | writeFcs => exact absurd h (State.memWrite_not_refused _ _ _ _ _)

/-- With the invariant and a filled buffer every phase answers a next state. -/
theorem tick_answers {s : State} (hi : s.Inv) (hf : s.filled) : ∃ t, tick s = .next t := by
  cases h : tick s with
  | next t => exact ⟨t, rfl⟩
  | fault r => exact absurd h (tick_ne_fault hi r)
  | refused r =>
    obtain ⟨a, ha, hnone, -⟩ := tick_eq_refused h
    have hsome := hf a ha
    rw [hnone] at hsome
    cases hsome

/-! ## The end of an operation -/

/-- How many phases an operation still has at most from a phase (R27). -/
def Phase.left : Phase → Nat
  | .idle => 0
  | .writeFcs => 1
  | .crc => 2
  | .writeCsum => 3
  | .csum => 4
  | .zeroCsum => 5
  | .writeFlags => 6
  | .spanCheck => 7
  | .unchangedTest => 8
  | .flags => 9
  | .checkType => 10
  | .checkLen => 11

theorem Phase.left_le_phaseCount (p : Phase) : p.left ≤ phaseCount := by cases p <;> decide

theorem Phase.left_eq_zero {p : Phase} : p.left = 0 ↔ p = .idle := by cases p <;> decide

/-- Every phase brings the end of the operation nearer. -/
theorem tick_left_le {s t : State} (h : tick s = .next t) : t.phase.left ≤ s.phase.left - 1 := by
  cases tick_next_cases h <;> simp [Phase.left, *]

/-- As many phases as are left bring the sequencer to IDLE, with the invariant and the buffer filled. -/
theorem runPhases_ends {n : Nat} {s : State} (hi : s.Inv) (hf : s.filled) (hn : s.phase.left ≤ n) :
    ∃ t, runPhases n s = .next t ∧ t.phase = .idle ∧ t.Inv ∧ t.filled := by
  induction n generalizing s with
  | zero => exact ⟨s, rfl, Phase.left_eq_zero.mp (Nat.le_zero.mp hn), hi, hf⟩
  | succ n ih =>
    obtain ⟨u, hu⟩ := tick_answers hi hf
    have hleft := tick_left_le hu
    obtain ⟨t, ht, hend⟩ := ih (tick_keeps_inv hi hu) (tick_keeps_filled hf hu) (by omega)
    exact ⟨t, by rw [runPhases, hu, andThen_next, ht], hend⟩

/-- From every phase a step is the operation in flight run to its end: at CHECK_LEN because the phases refine the
operation, in IDLE because no phase moves anything (R12, R27; log 10). -/
theorem step_eq_resume (s : State) : step s = resume s := by
  cases hp : s.phase
  case idle => rw [step_of_idle hp, resume, runPhases_of_idle _ hp]
  case checkLen => rw [step_of_checkLen hp, sequencerRefinesOperation s hp]
  all_goals simp only [step, hp]

/-- Settles O34: `runPhases_ends` from any phase, and a step runs the same phases. -/
theorem everyOperationEnds : Obligations.EveryOperationEnds := by
  intro s hi hf
  obtain ⟨t, ht, hidle, hinv, hfilled⟩ := runPhases_ends hi hf s.phase.left_le_phaseCount
  have hbusy : t.busy = false := by simpa [hidle] using hinv.busyIff
  exact ⟨⟨t, by rw [step_eq_resume]; exact ht, hidle, hbusy, hfilled⟩, t, ht, hidle⟩

end Sys2Proof.Machine
end

section
/-! The operation on a block that holds a frame is `modifyDfBit` of the frame (spec/10_state.md R26; spec/40_df_mutator.md
R80), and so is what the caller reads of it. -/

namespace Sys2Proof.Machine

/-! ## The datapath registers are no part of a held frame -/

theorem State.holds_withFlags {s : State} {bs : List Byte} (h : s.holds bs) (old new : Half) :
    (s.withFlags old new).holds bs := h

theorem State.holds_withSpan {s : State} {bs : List Byte} (h : s.holds bs) (ihl : BitVec 4) (span : BitVec 6) :
    (s.withSpan ihl span).holds bs := h

theorem State.holds_withCsum {s : State} {bs : List Byte} (h : s.holds bs) (acc : Word) (ck : Half) :
    (s.withCsum acc ck).holds bs := h

theorem State.holds_withCrcreg {s : State} {bs : List Byte} (h : s.holds bs) (r : Word) :
    (s.withCrcreg r).holds bs := h

/-- The end of an operation, with the frame that FB holds then and the outcome in STATUS. -/
structure State.EndsWith (t : State) (result : List Byte × Status) : Prop where
  holds : t.holds result.1
  status : t.status = result.2.code
  busy : t.busy = false
  done : t.done = true

theorem State.finish_endsWith {s : State} {bs : List Byte} (h : s.holds bs) (c : Status) :
    (s.finish c).EndsWith (bs, c) :=
  ⟨h, rfl, rfl, rfl⟩

/-! ## Frames held, and bytes stored -/

/-- A byte stored in FB is the byte set in the frame that FB holds. -/
theorem State.holds_store {s : State} {bs : List Byte} (h : s.holds bs) (a : Nat) (b : Byte) :
    (s.withFb (s.fb.store a b)).holds (bs.set a b) := by
  obtain ⟨hlen, hbytes⟩ := h
  refine ⟨by simpa using hlen, fun c hc => ?_⟩
  rw [List.length_set] at hc
  rw [State.withFb_fb, Memory.lookup_store, List.getElem?_set]
  by_cases hca : c = a
  · subst hca; simp [hc]
  · rw [if_neg hca, if_neg (Ne.symm hca), hbytes c hc]

/-- A 16-bit field stored, the high byte first, is the field set in the frame (R41). -/
theorem State.holds_storeHalf {s : State} {bs : List Byte} (h : s.holds bs) (a : Nat) (v : Half) :
    (s.withFb ((s.fb.store a (v.extractLsb' 8 8)).store (a + 1) (v.extractLsb' 0 8))).holds (frameSetHalf bs a v) :=
  State.holds_store (State.holds_store h a _) (a + 1) _

/-- Bytes stored over the end of a held frame replace its last bytes. -/
theorem State.holds_storeAll_end {s : State} {bs cs : List Byte} {a : Nat} (h : s.holds bs)
    (hend : a + cs.length = bs.length) : (s.withFb (s.fb.storeAll a cs)).holds (bs.take a ++ cs) := by
  obtain ⟨hlen, hbytes⟩ := h
  have htake : (bs.take a).length = a := by simp; omega
  refine ⟨by rw [List.length_append, htake, State.withFb_len]; omega, fun c hc => ?_⟩
  rw [List.length_append, htake] at hc
  rw [State.withFb_fb, Memory.lookup_storeAll]
  by_cases hca : a ≤ c
  · rw [if_pos ⟨hca, hc⟩, List.getElem?_append_right (by omega), htake]
  · rw [if_neg (fun hc' => hca hc'.1), List.getElem?_append_left (by omega), List.getElem?_take_of_lt (by omega),
      hbytes c (by omega)]

/-! ## The operands of a held frame -/

theorem State.holds_memRead_two {s : State} {bs : List Byte} {a : Nat} (h : s.holds bs) (ha : a + 1 < bs.length) :
    s.memRead a 2 = .next (frameHalf bs a) :=
  State.memRead_two_eq_next.mpr
    ⟨h.1 ▸ ha, _, _, State.holds_lookup h (Nat.lt_of_succ_lt ha), State.holds_lookup h ha, rfl⟩

theorem State.holds_loadFlags {s : State} {bs : List Byte} (h : s.holds bs) (hlen : 38 ≤ bs.length) (d : BitVec 1) :
    s.loadFlags d = .next (s.withFlags (frameHalf bs fragOff) (newFlags d (frameHalf bs fragOff))) := by
  rw [State.loadFlags, State.holds_memRead_two h (by simp only [fragOff]; omega), andThen_next]

theorem State.holds_loadSpan {s : State} {bs : List Byte} (h : s.holds bs) (hlen : 38 ≤ bs.length) :
    s.loadSpan = .next (s.withSpan (ihlOf (bs.getD ipOff 0#8)) (spanOf (ihlOf (bs.getD ipOff 0#8)))) :=
  State.loadSpan_eq_next.mpr ⟨by rw [h.1]; omega, _, State.holds_lookup h (by omega), rfl⟩

/-- SPAN, loaded from a held frame, is the span of the frame (R68). -/
theorem spanOf_frame (bs : List Byte) : (spanOf (ihlOf (bs.getD ipOff 0#8))).toNat = frameSpan bs :=
  spanOf_toNat _

/-! ## The rewrite of a held frame -/

/-- A field that lies after the first header byte leaves the span of the frame. -/
theorem frameSpan_frameSetHalf (bs : List Byte) {a : Nat} (v : Half) (ha : ipOff < a) :
    frameSpan (frameSetHalf bs a v) = frameSpan bs := by
  have hbyte : (frameSetHalf bs a v).getD ipOff 0#8 = bs.getD ipOff 0#8 := by
    simp only [frameSetHalf, List.getD_eq_getElem?_getD]
    rw [List.getElem?_set_ne (by omega), List.getElem?_set_ne (by omega)]
  rw [frameSpan, frameIhl, hbyte]; rfl

/-- The frame of S7: the flags field rewritten and the checksum field zero. -/
def frameZeroed (bs : List Byte) (new : Half) : List Byte :=
  frameSetHalf (frameSetHalf bs fragOff new) csumOff 0x0000#16

@[simp] theorem frameZeroed_length (bs : List Byte) (new : Half) : (frameZeroed bs new).length = bs.length := by
  simp [frameZeroed]

theorem frameSpan_frameZeroed (bs : List Byte) (new : Half) : frameSpan (frameZeroed bs new) = frameSpan bs := by
  rw [frameZeroed, frameSpan_frameSetHalf _ _ (by decide), frameSpan_frameSetHalf _ _ (by decide)]

/-- FB after S7 holds the zeroed frame. -/
theorem State.holds_zeroedFb {s : State} {bs : List Byte} (h : s.holds bs) :
    (s.withFb s.zeroedFb).holds (frameZeroed bs s.new) :=
  State.holds_storeHalf (State.holds_storeHalf h fragOff s.new) csumOff 0x0000#16

/-- FB after S9 holds the frame with the checksum. -/
theorem State.holds_summedFb {s : State} {bs : List Byte} (h : s.holds bs) (ck : Half) :
    (s.withFb (s.summedFb ck)).holds (frameSetHalf (frameZeroed bs s.new) csumOff ck) :=
  State.holds_storeHalf (State.holds_zeroedFb h) csumOff ck

/-- FB after S11 holds the frame with the checksum and the FCS. -/
theorem State.holds_rewrittenFb {s : State} {bs : List Byte} (h : s.holds bs) (hlen : 38 ≤ bs.length) (ck : Half)
    (c : Word) :
    (s.withFb (s.rewrittenFb ck c)).holds
      (frameBody (frameSetHalf (frameZeroed bs s.new) csumOff ck) ++ wordBytes c) := by
  have hstore : s.rewrittenFb ck c = (s.summedFb ck).storeAll (s.len - 4) (wordBytes c) := rfl
  have hbody : frameBody (frameSetHalf (frameZeroed bs s.new) csumOff ck) =
      (frameSetHalf (frameZeroed bs s.new) csumOff ck).take (s.len - 4) := by
    rw [frameBody, frameSetHalf_length, frameZeroed_length, h.1]; rfl
  rw [hstore, hbody]
  exact State.holds_storeAll_end (State.holds_summedFb h ck) (by simp [h.1]; omega)

/-- The rewrite of a held frame whose span fits: the frame with its checksum and then its FCS recomputed. -/
theorem State.holds_rewrite {s : State} {bs : List Byte} (h : s.holds bs) (hlen : 38 ≤ bs.length)
    (hspan : s.span.toNat = frameSpan bs) (hfits : 14 + frameSpan bs ≤ bs.length) :
    ∃ t, s.rewrite = .next t ∧ t.EndsWith (frameWithFcs (frameWithChecksum bs s.new), .ok) := by
  have hheader : (s.withFb s.zeroedFb).readSpan 14 s.span.toNat = .next (frameHeader (frameZeroed bs s.new)) := by
    rw [State.holds_readSpan (State.holds_zeroedFb h) (by simp; omega), hspan, ← frameSpan_frameZeroed bs s.new]; rfl
  have hbody : (s.withFb (s.summedFb (csum16 (frameHeader (frameZeroed bs s.new))))).readSpan 0 (s.len - 4) =
      .next (frameBody (frameWithChecksum bs s.new)) := by
    rw [State.holds_readSpan (State.holds_summedFb h _) (by simp [h.1]), frameBody, frameWithChecksum_length, h.1]; rfl
  refine ⟨_, (State.rewrite_eq_next (by rw [h.1]; exact hlen)).mpr ⟨_, _, hheader, hbody, rfl⟩, ?_⟩
  exact State.finish_endsWith (State.holds_withCrcreg (State.holds_withCsum (State.holds_rewrittenFb h hlen _ _) _ _) _) _

/-! ## The operation as a function of the frame -/

/-- The operation keeps the length of the frame: only a frame of at least 38 bytes is rewritten. -/
theorem modifyDfBit_length (bs : List Byte) (d : BitVec 1) : (modifyDfBit bs d).1.length = bs.length := by
  unfold modifyDfBit
  split_ifs with hshort
  case neg =>
    have hfour : 4 ≤ bs.length := by rw [minLen_eq] at hshort; omega
    rw [frameWithFcs_length (by rw [frameWithChecksum_length]; exact hfour), frameWithChecksum_length]
  all_goals rfl

/-- A held IPv4 frame that needs a change: the span check decides between the exit and the rewrite (R80 S5, R87). -/
theorem mdf_of_holds_of_changed {s : State} {bs : List Byte} (h : s.holds bs) {d : BitVec 1} (hlong : 38 ≤ bs.length)
    (het : s.readEtherType = .next etypeIpv4)
    (hchanged : newFlags d (frameHalf bs fragOff) ≠ frameHalf bs fragOff) :
    ∃ t, mdf d s = .next t ∧ t.EndsWith
      (if bs.length < ipOff + frameSpan bs then (bs, .spanOutOfFrame)
        else (frameWithFcs (frameWithChecksum bs (newFlags d (frameHalf bs fragOff))), .ok)) := by
  have hflags := State.holds_loadFlags h hlong d
  set s3 := s.withFlags (frameHalf bs fragOff) (newFlags d (frameHalf bs fragOff))
  have hload := State.holds_loadSpan (s := s3) (State.holds_withFlags h _ _) hlong
  set s5 := s3.withSpan (ihlOf (bs.getD ipOff 0#8)) (spanOf (ihlOf (bs.getD ipOff 0#8)))
  have h5 : s5.holds bs := State.holds_withSpan (State.holds_withFlags h _ _) _ _
  have hspan : s5.span.toNat = frameSpan bs := spanOf_frame bs
  have hmdf {t : State} (hend : (s5.len < 14 + s5.span.toNat ∧ t = s5.finish .spanOutOfFrame) ∨
      (14 + s5.span.toNat ≤ s5.len ∧ s5.rewrite = .next t)) : mdf d s = .next t :=
    mdf_eq_next.mpr (.inr ⟨h.1 ▸ hlong, _, het, .inr ⟨rfl, s3, hflags, .inr ⟨hchanged, s5, hload, hend⟩⟩⟩)
  rw [hspan, h5.1] at hmdf
  by_cases hout : bs.length < ipOff + frameSpan bs
  · rw [if_pos hout]
    exact ⟨_, hmdf (.inl ⟨hout, rfl⟩), State.finish_endsWith h5 _⟩
  · rw [if_neg hout]
    have hfits : 14 + frameSpan bs ≤ bs.length := Nat.le_of_not_lt hout
    obtain ⟨t, ht, hend⟩ := State.holds_rewrite h5 hlong hspan hfits
    exact ⟨t, hmdf (.inr ⟨hfits, ht⟩), hend⟩

/-- MDF on a block that holds a frame: it answers a next state, which holds what `modifyDfBit` makes of the frame (R26,
R80). -/
theorem mdf_of_holds {s : State} {bs : List Byte} (h : s.holds bs) (d : BitVec 1) :
    ∃ t, mdf d s = .next t ∧ t.EndsWith (modifyDfBit bs d) := by
  have hlen := h.1
  unfold modifyDfBit
  by_cases hshort : bs.length < minLen
  · rw [if_pos hshort]
    exact ⟨_, mdf_eq_next.mpr (.inl ⟨hlen ▸ hshort, rfl⟩), State.finish_endsWith h _⟩
  have hlong : 38 ≤ bs.length := Nat.le_of_not_lt hshort
  have het : s.readEtherType = .next (frameHalf bs etypeOff) :=
    State.holds_memRead_two h (by simp only [etypeOff]; omega)
  rw [if_neg hshort]
  by_cases hforeign : frameHalf bs etypeOff ≠ etypeIpv4
  · rw [if_pos hforeign]
    exact ⟨_, mdf_eq_next.mpr (.inr ⟨hlen ▸ hlong, _, het, .inl ⟨hforeign, rfl⟩⟩), State.finish_endsWith h _⟩
  rw [not_not.mp hforeign] at het
  rw [if_neg hforeign]
  by_cases hsame : newFlags d (frameHalf bs fragOff) = frameHalf bs fragOff
  · rw [if_pos hsame]
    exact ⟨_, mdf_eq_next.mpr (.inr ⟨hlen ▸ hlong, _, het, .inr ⟨rfl, _, State.holds_loadFlags h hlong d,
      .inl ⟨hsame, rfl⟩⟩⟩), State.finish_endsWith (State.holds_withFlags h _ _) _⟩
  · rw [if_neg hsame]
    exact mdf_of_holds_of_changed h hlong het hsame

/-! ## What the caller sees -/

/-- Settles O38: the four accesses lead to a started block that holds the frame, `mdf_of_holds` says what the step leaves,
and the caller's reads are those of the frame held. -/
theorem callerSeesPureFunction : Obligations.CallerSeesPureFunction := by
  intro s bs d hidle _
  have hholds := State.placed_holds s bs
  set s1 := (s.withFb (s.fb.storeAll 0 bs)).withLen bs.length
  obtain ⟨t, ht, ⟨hframe, hstatus, hbusy, hdone⟩⟩ := mdf_of_holds (s := (s1.withSetDf d).started) hholds d
  refine ⟨s1, s1.withSetDf d, (s1.withSetDf d).started, t, callerPlaceFrame_eq_next.mpr ⟨hidle, rfl⟩,
    callerWriteSetDf_eq_next.mpr ⟨hidle, rfl⟩, callerStart_eq_next.mpr ⟨hidle, rfl⟩, ?_, hbusy, hbusy,
    hframe.1.trans (modifyDfBit_length bs d), hframe, fun a ha => ?_,
    callerReadStatus_eq_next.mpr ⟨hdone, hbusy, hstatus.symm⟩⟩
  · rw [step_of_checkLen rfl, exec_command]; exact ht
  · exact callerReadByte_eq_next.mpr ⟨hbusy, hframe.1 ▸ ha, by rw [hframe.2 a ha, List.getElem?_eq_getElem ha]⟩

end Sys2Proof.Machine
end

section
/-! The invariant of the block is kept by its steps, by its phases and by the moves of the caller, and PHASE walks the
fixed order (spec/10_state.md R24, R27, R29, R32; spec/70_reset_and_hazards.md R140, R142, R145). -/

namespace Sys2Proof.Machine

/-! ## Phases and steps -/

/-- Settles O31. -/
theorem invariantKeptByPhase : Obligations.InvariantKeptByPhase := fun _ _ => tick_keeps_inv

/-- However many phases are run, the invariant stands after them. -/
theorem runPhases_keeps_inv {n : Nat} {s t : State} (hi : s.Inv) (h : runPhases n s = .next t) : t.Inv := by
  induction n generalizing s with
  | zero =>
    rw [runPhases, Host.Outcome.next.injEq] at h
    exact h ▸ hi
  | succ n ih =>
    obtain ⟨u, hu, hrest⟩ := andThen_eq_next.mp h
    exact ih (tick_keeps_inv hi hu) hrest

/-- Settles O30: by `step_eq_resume` a step is a run of phases, each of which keeps the invariant. -/
theorem invariantKeptByStep : Obligations.InvariantKeptByStep := by
  intro s t hi h
  rw [step_eq_resume] at h
  exact runPhases_keeps_inv hi h

/-- Settles O28: each of the sixteen moves that `tick_next_cases` knows is one of the allowed pairs. -/
theorem phaseWalksInOrder : Obligations.PhaseWalksInOrder := by
  intro s t h
  cases tick_next_cases h with
  | idle hp | tooSmall hp | foreign hp | unchanged hp | spanLeaves hp | writeFcs hp
  | longEnough hp | ipv4 hp | loadFlags hp | changed hp | spanFits hp
  | writeFlags hp | zeroCsum hp | csum hp | writeCsum hp | crc hp => simp [hp]

/-! ## The moves from outside -/

/-- An idle block has the invariant as soon as its memory is canonical: no test of R80 stands behind it. -/
theorem State.Inv.of_idle {s : State} (hwf : s.fb.wf = true) (hidle : s.phase = .idle) (hbusy : s.busy = false) :
    s.Inv where
  memoryWf := hwf
  busyIff := by simp [hidle, hbusy]
  doneIdle := fun _ => hbusy
  longEnough := by simp [hidle, Phase.pastLenCheck]
  flagsLoaded := by simp [hidle, Phase.pastFlags]
  changeNeeded := by simp [hidle, Phase.pastUnchangedTest]
  spanFits := by simp [hidle, Phase.pastSpanCheck]

/-- So has a block that has just been started: at CHECK_LEN no test has been passed yet. -/
theorem State.Inv.started {s : State} (hwf : s.fb.wf = true) : s.started.Inv where
  memoryWf := hwf
  busyIff := by simp
  doneIdle := by simp
  longEnough := by simp [Phase.pastLenCheck]
  flagsLoaded := by simp [Phase.pastFlags]
  changeNeeded := by simp [Phase.pastUnchangedTest]
  spanFits := by simp [Phase.pastSpanCheck]

/-- With the invariant, BUSY = 0 says that PHASE is IDLE (R24, R27). -/
theorem State.Inv.phase_idle {s : State} (hi : s.Inv) (hbusy : s.busy = false) : s.phase = .idle := by
  by_contra hne
  have hset := hi.busyIff.mpr hne
  rw [hbusy] at hset
  cases hset

/-- Settles O29. -/
theorem invariantAtReset : Obligations.InvariantAtReset := .of_idle State.reset_fb_wf rfl rfl

/-- Settles O32: the moves of `callerMove_next_cases` leave the block idle with a canonical memory, but for START. -/
theorem invariantKeptByCaller : Obligations.InvariantKeptByCaller := by
  intro m s t hi h
  rcases callerMove_next_cases h with rfl | ⟨hbusy, hmove⟩
  · exact .of_idle (callerReset_fb_wf hi.memoryWf) rfl rfl
  have hidle := hi.phase_idle hbusy
  rcases hmove with rfl | ⟨d, rfl⟩ | ⟨n, rfl⟩ | ⟨a, b, rfl⟩ | ⟨bs, rfl⟩
  · exact .started hi.memoryWf
  · exact .of_idle (s := s.withSetDf d) hi.memoryWf hidle hbusy
  · exact .of_idle (s := s.withLen n) hi.memoryWf hidle hbusy
  · exact hi.withFb (Memory.wf_store a b hi.memoryWf)
  · exact .of_idle (s := (s.withFb (s.fb.storeAll 0 bs)).withLen bs.length) (Memory.wf_storeAll 0 bs hi.memoryWf)
      hidle hbusy

end Sys2Proof.Machine
end

section
/-! What an operation depends on (spec/10_state.md R26): FB, LEN and the command; the other registers have no influence on
FB, LEN and STATUS after it. -/

namespace Sys2Proof.Machine

/-- Settles O14: both commands are MDF with their own bit, and `mdf_of_holds` says what MDF leaves of a held frame. -/
theorem operationIsPureFunctionOfFrame : Obligations.OperationIsPureFunctionOfFrame := by
  intro i s bs h
  obtain ⟨t, ht, hend⟩ := mdf_of_holds h i.commandBit
  exact ⟨t, by rw [exec_eq_mdf]; exact ht, hend.holds, hend.status⟩

/-- Two states that agree in FB and LEN, the inputs of an operation beside its command (R26). -/
structure State.SameInputs (s s' : State) : Prop where
  fb : s.fb = s'.fb
  len : s.len = s'.len

/-- The outcome is a next state with the FB, LEN and STATUS of `t`. -/
def AgreesWith (t : State) (o : Host.Outcome State Fault Refusal) : Prop :=
  ∃ t', o = .next t' ∧ t'.fb = t.fb ∧ t'.len = t.len ∧ t'.status = t.status

section
variable {s s' t : State}

theorem State.SameInputs.withFlags (h : s.SameInputs s') (old new : Half) :
    (s.withFlags old new).SameInputs (s'.withFlags old new) := ⟨h.fb, h.len⟩

theorem State.SameInputs.withSpan (h : s.SameInputs s') (ihl : BitVec 4) (span : BitVec 6) :
    (s.withSpan ihl span).SameInputs (s'.withSpan ihl span) := ⟨h.fb, h.len⟩

theorem State.SameInputs.finish (h : s.SameInputs s') (c : Status) : AgreesWith (s.finish c) (.next (s'.finish c)) :=
  ⟨_, rfl, h.fb.symm, h.len.symm, rfl⟩

/-- Spans are read alike from both states, with alike contents of FB. -/
theorem State.SameInputs.readSpan_withFb (h : s.SameInputs s') {m m' : Memory} (hm : m = m') (a n : Nat) :
    (s'.withFb m').readSpan a n = (s.withFb m).readSpan a n :=
  State.readSpan_congr (s := s'.withFb m') (t := s.withFb m) hm.symm h.len.symm a n

/-- The rewrite looks at FB, LEN, NEW and SPAN only. -/
theorem State.SameInputs.rewrite (h : s.SameInputs s') (hnew : s.new = s'.new) (hspan : s.span = s'.span)
    (hlen : 38 ≤ s.len) (ht : s.rewrite = .next t) : AgreesWith t s'.rewrite := by
  obtain ⟨hdr, body, hhdr, hbody, rfl⟩ := (State.rewrite_eq_next hlen).mp ht
  have hzeroed : s.zeroedFb = s'.zeroedFb := by simp only [State.zeroedFb, h.fb, hnew]
  have hsummed : s.summedFb (csum16 hdr) = s'.summedFb (csum16 hdr) := by simp only [State.summedFb, hzeroed]
  refine ⟨_, (State.rewrite_eq_next (h.len ▸ hlen)).mpr ⟨hdr, body, ?_, ?_, rfl⟩, ?_, h.len.symm, rfl⟩
  · rw [← hhdr, hspan]
    exact h.readSpan_withFb hzeroed _ _
  · rw [← hbody, h.len]
    exact h.readSpan_withFb hsummed _ _
  · simp only [State.finish_fb, State.withCrcreg_fb, State.withCsum_fb, State.withFb_fb, State.rewrittenFb, hsummed,
      h.len]

/-- MDF looks at FB, LEN and its command bit only: each exit, and the rewrite, is taken from both states alike. -/
theorem State.SameInputs.mdf (h : s.SameInputs s') {d : BitVec 1} (ht : Machine.mdf d s = .next t) :
    AgreesWith t (Machine.mdf d s') := by
  have htype : s'.readEtherType = s.readEtherType := State.memRead_congr h.fb.symm h.len.symm _ _
  unfold Machine.mdf
  rcases mdf_next_cases ht with ⟨hshort, rfl⟩ | ⟨hlong, et, het, hcase⟩
  · rw [if_pos (h.len ▸ hshort)]
    exact h.finish _
  have hlong' : ¬ s'.len < minLen := Nat.not_lt.mpr (h.len ▸ hlong)
  rw [if_neg hlong', htype, het, andThen_next]
  rcases hcase with ⟨hforeign, rfl⟩ | ⟨hipv4, s3, hflags, hcase⟩
  · rw [if_pos hforeign]
    exact h.finish _
  obtain ⟨h21, hi, lo, hhi, hlo, rfl⟩ := State.loadFlags_eq_next.mp hflags
  rw [if_neg (not_not.mpr hipv4),
    State.loadFlags_eq_next.mpr ⟨h.len ▸ h21, hi, lo, h.fb ▸ hhi, h.fb ▸ hlo, rfl⟩, andThen_next]
  have h3 := h.withFlags (hi ++ lo) (newFlags d (hi ++ lo))
  rcases hcase with ⟨hsame, rfl⟩ | ⟨hchanged, s5, hspan, hcase⟩
  · rw [if_pos (by exact hsame)]
    exact h3.finish _
  obtain ⟨h14, b, hb, rfl⟩ := State.loadSpan_eq_next.mp hspan
  rw [if_neg (by exact hchanged), State.loadSpan_eq_next.mpr ⟨h3.len ▸ h14, b, h3.fb ▸ hb, rfl⟩, andThen_next]
  have h5 := h3.withSpan (ihlOf b) (spanOf (ihlOf b))
  rcases hcase with ⟨hout, rfl⟩ | ⟨hfits, hrewrite⟩
  · rw [if_pos ((spanLeavesFrame_iff _).mpr (h5.len ▸ hout))]
    exact h5.finish _
  · rw [if_neg (mt (spanLeavesFrame_iff _).mp (Nat.not_lt.mpr (h5.len ▸ hfits)))]
    exact h5.rewrite rfl rfl hlong hrewrite

end

/-- Settles O26: `State.SameInputs.mdf`, both commands being MDF with their own bit. -/
theorem resultDependsOnInputsOnly : Obligations.ResultDependsOnInputsOnly := by
  intro i s s' t hfb hlen ht
  rw [exec_eq_mdf] at ht ⊢
  exact State.SameInputs.mdf ⟨hfb, hlen⟩ ht

end Sys2Proof.Machine
end

section
/-! When the caller is kept out: what each of its accesses is refused for, and when STATUS has a meaning
(spec/10_state.md R23, R24, R32; spec/70_reset_and_hazards.md R145 to R149). -/

namespace Sys2Proof.Machine

/-! ## What each access is refused for -/

section
variable {s : State} {r : Refusal}

theorem callerWriteByte_eq_refused {a : Nat} {b : Byte} :
    callerWriteByte a b s = .refused r ↔ s.busy = true ∧ r = .bufferOwnedByBlock := by
  cases h : s.busy <;> simp [callerWriteByte, h, eq_comm]

theorem callerPlaceFrame_eq_refused {bs : List Byte} :
    callerPlaceFrame bs s = .refused r ↔ s.busy = true ∧ r = .bufferOwnedByBlock := by
  cases h : s.busy <;> simp [callerPlaceFrame, h, eq_comm]

theorem callerWriteLen_eq_refused {n : Nat} :
    callerWriteLen n s = .refused r ↔ s.busy = true ∧ r = .inputsNotStable := by
  cases h : s.busy <;> simp [callerWriteLen, h, eq_comm]

theorem callerWriteSetDf_eq_refused {d : BitVec 1} :
    callerWriteSetDf d s = .refused r ↔ s.busy = true ∧ r = .inputsNotStable := by
  cases h : s.busy <;> simp [callerWriteSetDf, h, eq_comm]

theorem callerStart_eq_refused : callerStart s = .refused r ↔ s.busy = true ∧ r = .startWhileBusy := by
  cases h : s.busy <;> simp [callerStart, h, eq_comm]

/-- The read of STATUS is refused outside the interval from DONE to the next START (R149). -/
theorem callerReadStatus_eq_refused :
    callerReadStatus s = .refused r ↔ (s.done = false ∨ s.busy = true) ∧ r = .statusNotDefined := by
  cases hdone : s.done <;> cases hbusy : s.busy <;> simp [callerReadStatus, hdone, hbusy, eq_comm]

end

/-- Settles O35. -/
theorem startOnlyWhenIdle : Obligations.StartOnlyWhenIdle :=
  ⟨fun _ hbusy => callerStart_eq_refused.mpr ⟨hbusy, rfl⟩, fun _ hidle => callerStart_eq_next.mpr ⟨hidle, rfl⟩⟩

/-- Settles O36. -/
theorem callerKeptOutWhileBusy : Obligations.CallerKeptOutWhileBusy := fun _ _ _ _ _ _ hbusy =>
  ⟨callerReadByte_eq_refused.mpr (.inl ⟨hbusy, rfl⟩), callerWriteByte_eq_refused.mpr ⟨hbusy, rfl⟩,
    callerPlaceFrame_eq_refused.mpr ⟨hbusy, rfl⟩, callerWriteLen_eq_refused.mpr ⟨hbusy, rfl⟩,
    callerWriteSetDf_eq_refused.mpr ⟨hbusy, rfl⟩⟩

/-- Settles O5: DONE is over after reset, so STATUS is refused. -/
theorem resetLeavesBlockIdle : Obligations.ResetLeavesBlockIdle :=
  ⟨⟨rfl, rfl⟩, fun _ => ⟨rfl, rfl, callerReadStatus_eq_refused.mpr ⟨.inl rfl, rfl⟩⟩⟩

/-! ## The end of an operation -/

/-- The rewrite ends as every operation ends, with OK (R80 S12). -/
theorem State.rewrite_next_finish {s t : State} (h : s.rewrite = .next t) : ∃ u : State, t = u.finish .ok := by
  simp only [State.rewrite, andThen_eq_next, Host.Outcome.next.injEq] at h
  obtain ⟨-, -, -, -, -, -, -, -, -, -, u, -, rfl⟩ := h
  exact ⟨u, rfl⟩

/-- Every operation that ends does so by the one shared ending (R127). -/
theorem mdf_next_finish {d : BitVec 1} {s t : State} (h : mdf d s = .next t) :
    ∃ (u : State) (c : Status), t = u.finish c := by
  rcases mdf_next_cases h with
    ⟨-, rfl⟩ | ⟨-, _, -, ⟨-, rfl⟩ | ⟨-, s3, -, ⟨-, rfl⟩ | ⟨-, s5, -, ⟨-, rfl⟩ | ⟨-, hrewrite⟩⟩⟩⟩
  · exact ⟨s, .frameTooSmall, rfl⟩
  · exact ⟨s, .notIpv4, rfl⟩
  · exact ⟨s3, .ok, rfl⟩
  · exact ⟨s5, .spanOutOfFrame, rfl⟩
  · obtain ⟨u, rfl⟩ := State.rewrite_next_finish hrewrite
    exact ⟨u, .ok, rfl⟩

/-- Settles O37: an operation ends with DONE and without BUSY, START takes DONE away, and reset leaves none. -/
theorem statusReadableOnlyAfterDone : Obligations.StatusReadableOnlyAfterDone := by
  refine ⟨fun i s t hend => ?_, fun s t hstart => ?_, fun s hbusy => ?_, ?_⟩
  · rw [exec_eq_mdf] at hend
    obtain ⟨u, c, rfl⟩ := mdf_next_finish hend
    exact callerReadStatus_eq_next.mpr ⟨rfl, rfl, rfl⟩
  · obtain ⟨-, rfl⟩ := callerStart_eq_next.mp hstart
    exact callerReadStatus_eq_refused.mpr ⟨.inl rfl, rfl⟩
  · exact callerReadStatus_eq_refused.mpr ⟨.inr hbusy, rfl⟩
  · exact callerReadStatus_eq_refused.mpr ⟨.inl rfl, rfl⟩

end Sys2Proof.Machine
end

section
/-! No operation, no step and no phase reaches outside the buffer (spec/20_memory.md R48, R54). -/

namespace Sys2Proof.Machine

/-! ## One operation, from any state -/

section
variable {s : State}

/-- Past the length check the EtherType lies in the buffer. -/
theorem State.readEtherType_ne_fault (hlen : 38 ≤ s.len) (r : Fault) : s.readEtherType ≠ .fault r := by
  intro h
  have hout := State.memRead_eq_fault h
  simp only [etypeOff] at hout
  omega

/-- So does the flags field. -/
theorem State.loadFlags_ne_fault (hlen : 38 ≤ s.len) (d : BitVec 1) (r : Fault) : s.loadFlags d ≠ .fault r := by
  intro h
  have hout := State.memRead_eq_fault (andThen_next_eq_fault.mp h)
  simp only [fragOff] at hout
  omega

/-- So does the first byte of the header. -/
theorem State.loadSpan_ne_fault (hlen : 38 ≤ s.len) (r : Fault) : s.loadSpan ≠ .fault r := by
  intro h
  obtain ⟨hout, -⟩ := State.readByte_eq_fault.mp (andThen_next_eq_fault.mp h)
  simp only [ipOff] at hout
  omega

end

/-- The tests of R80 guard the accesses: the length check stands before every read, the span check before the rewrite, and
the operands that are loaded between them leave LEN alone. -/
theorem mdf_ne_fault (d : BitVec 1) (s : State) (r : Fault) : mdf d s ≠ .fault r := by
  intro h
  unfold mdf at h
  split at h
  case isTrue => cases h
  case isFalse hshort =>
    have hlong : 38 ≤ s.len := Nat.le_of_not_lt hshort
    rcases andThen_eq_fault.mp h with htype | ⟨et, -, h⟩
    · exact State.readEtherType_ne_fault hlong r htype
    split at h
    case isTrue => cases h
    rcases andThen_eq_fault.mp h with hflags | ⟨s3, hflags, h⟩
    · exact State.loadFlags_ne_fault hlong d r hflags
    obtain ⟨-, _, _, -, -, rfl⟩ := State.loadFlags_eq_next.mp hflags
    split at h
    case isTrue => cases h
    rcases andThen_eq_fault.mp h with hspan | ⟨s5, hspan, h⟩
    · exact State.loadSpan_ne_fault (by exact hlong) r hspan
    obtain ⟨-, _, -, rfl⟩ := State.loadSpan_eq_next.mp hspan
    split at h
    case isTrue => cases h
    case isFalse hin =>
      have hfits := Nat.le_of_not_lt (mt (spanLeavesFrame_iff _).mpr hin)
      exact State.rewrite_ne_fault (by exact hlong) hfits r h

/-- Settles O24: `mdf_ne_fault`, both commands being MDF with their own bit. -/
theorem operationNeverLeavesBuffer : Obligations.OperationNeverLeavesBuffer := by
  intro i s r
  rw [exec_eq_mdf]
  exact mdf_ne_fault i.commandBit s r

/-! ## Steps and phases, from a state with the invariant -/

/-- However many phases are run, none of them reaches outside the buffer. -/
theorem runPhases_ne_fault {n : Nat} {s : State} (hi : s.Inv) (r : Fault) : runPhases n s ≠ .fault r := by
  induction n generalizing s with
  | zero => nofun
  | succ n ih =>
    intro h
    rcases andThen_eq_fault.mp h with htick | ⟨u, hu, hrest⟩
    · exact tick_ne_fault hi r htick
    · exact ih (tick_keeps_inv hi hu) hrest

/-- Settles O56: a step is a run of phases, and with the invariant no phase faults. -/
theorem invariantRulesOutFaults : Obligations.InvariantRulesOutFaults := by
  intro s r hi
  refine ⟨?_, tick_ne_fault hi r⟩
  rw [step_eq_resume]
  exact runPhases_ne_fault hi r

/-- Every state the block can come to has the invariant: it holds at reset, and every kind of move keeps it. -/
theorem Reachable.inv {s : State} (h : Reachable s) : s.Inv := by
  induction h with
  | reset => exact invariantAtReset
  | step _ hstep ih => exact invariantKeptByStep _ _ ih hstep
  | tick _ htick ih => exact invariantKeptByPhase _ _ ih htick
  | move m _ hmove ih => exact invariantKeptByCaller m _ _ ih hmove

/-- Settles O33: a state the block can come to has the invariant, which rules every fault out. -/
theorem reachableBlockNeverFaults : Obligations.ReachableBlockNeverFaults :=
  fun s r h => invariantRulesOutFaults s r h.inv

end Sys2Proof.Machine
end

section
/-! What an operation changes and what it leaves: how each of its ends leaves the block, and which bytes and bits of FB the
rewrite moves (spec/20_memory.md R53; spec/40_df_mutator.md R91, R92; spec/60_exceptions.md R127). -/

namespace Sys2Proof.Machine

/-! ## The flags field with DF forced -/

/-- Forcing DF sets bit 14 to the command bit and no other bit (R85). -/
theorem newFlags_getLsbD (d : BitVec 1) (f : Half) (k : Nat) :
    (newFlags d f).getLsbD k = if k = 14 then d == 1#1 else f.getLsbD k := by
  have hmask : dfMask = BitVec.twoPow 16 14 := by decide
  by_cases hk : k < 16
  · rcases BitVec.eq_zero_or_eq_one d with rfl | rfl
    · by_cases h14 : k = 14 <;> simp [newFlags, hmask, hk, h14]
    · by_cases h14 : k = 14 <;> simp [newFlags, hmask, hk, h14]
  · have hge : 16 ≤ k := Nat.le_of_not_lt hk
    rw [BitVec.getLsbD_of_ge _ k hge, BitVec.getLsbD_of_ge f k hge, if_neg (by omega)]

/-- Where DF is as the command asks, forcing it changes nothing. -/
theorem newFlags_eq_self_of_dfBit {d : BitVec 1} {f : Half} (h : dfBit f = d) : newFlags d f = f := by
  have hbit : f.getLsbD 14 = (d == 1#1) := by
    have hdf : (dfBit f).getLsbD 0 = f.getLsbD 14 := BitVec.getLsbD_extractLsb' ..
    rw [← hdf, h]
    rcases BitVec.eq_zero_or_eq_one d with rfl | rfl <;> rfl
  refine BitVec.eq_of_getLsbD_eq fun k _ => ?_
  rw [newFlags_getLsbD]
  split
  case isTrue h14 => rw [h14, hbit]
  case isFalse => rfl

/-- The low byte of the field holds no DF bit. -/
theorem newFlags_low_byte (d : BitVec 1) (hi lo : Byte) : (newFlags d (hi ++ lo)).extractLsb' 0 8 = lo := by
  refine BitVec.eq_of_getLsbD_eq fun k hk => ?_
  rw [BitVec.getLsbD_extractLsb', newFlags_getLsbD, if_neg (by omega), BitVec.getLsbD_append]
  simp [hk]

/-- In the high byte DF is bit 6, and every other bit is kept. -/
theorem newFlags_high_byte (d : BitVec 1) (hi lo : Byte) :
    (newFlags d (hi ++ lo)).extractLsb' 8 8 &&& 0xBF#8 = hi &&& 0xBF#8 := by
  refine BitVec.eq_of_getLsbD_eq fun k hk => ?_
  rw [BitVec.getLsbD_and, BitVec.getLsbD_and]
  by_cases h6 : k = 6
  · have hmask : (0xBF#8).getLsbD k = false := by rw [h6]; rfl
    rw [hmask, Bool.and_false, Bool.and_false]
  · have hkept : ((newFlags d (hi ++ lo)).extractLsb' 8 8).getLsbD k = hi.getLsbD k := by
      rw [BitVec.getLsbD_extractLsb', newFlags_getLsbD, if_neg (by omega), BitVec.getLsbD_append]
      simp [hk]
    rw [hkept]

/-! ## The bytes that the rewrite moves -/

/-- Of all bytes outside the checksum field and the FCS the rewrite moves the flags field only (R53, R92). -/
theorem State.rewrittenFb_lookup {s : State} (hlen : 38 ≤ s.len) (ck : Half) (c : Word) {a : Nat} (h24 : a ≠ 24)
    (h25 : a ≠ 25) (hfcs : a < s.len - 4 ∨ s.len ≤ a) :
    (s.rewrittenFb ck c).lookup a =
      if a = 20 then some (s.new.extractLsb' 8 8) else if a = 21 then some (s.new.extractLsb' 0 8)
      else s.fb.lookup a := by
  have hzeroed : s.zeroedFb.lookup a =
      if a = 20 then some (s.new.extractLsb' 8 8) else if a = 21 then some (s.new.extractLsb' 0 8)
      else s.fb.lookup a := by
    rw [State.zeroedFb, Memory.lookup_store_of_ne _ _ h25, Memory.lookup_store_of_ne _ _ h24]
    simp only [Memory.lookup_store]
    by_cases h20 : a = 20
    · rw [if_neg (by omega), if_pos h20, if_pos h20]
    · rw [if_neg h20, if_neg h20]
  have hsummed : (s.summedFb ck).lookup a = s.zeroedFb.lookup a := by
    rw [State.summedFb, Memory.lookup_store_of_ne _ _ h25, Memory.lookup_store_of_ne _ _ h24]
  rw [State.rewrittenFb, Memory.lookup_store_of_ne _ _ (by omega), Memory.lookup_store_of_ne _ _ (by omega),
    Memory.lookup_store_of_ne _ _ (by omega), Memory.lookup_store_of_ne _ _ (by omega), hsummed, hzeroed]

/-! ## The ends of an operation -/

/-- S3 on the bytes of the flags field: OLD and NEW are loaded. -/
def State.flagsLoaded (s : State) (d : BitVec 1) (hi lo : Byte) : State :=
  s.withFlags (hi ++ lo) (newFlags d (hi ++ lo))

/-- S5 on the first byte of the header: IHL and SPAN are loaded. -/
def State.spanLoaded (s : State) (b : Byte) : State := s.withSpan (ihlOf b) (spanOf (ihlOf b))

/-- S6 to S11 on the bytes of the header span and of the body: FB is rewritten, and ACC, CK and CRCREG hold what was
computed. -/
def State.rewritten (s : State) (hdr body : List Byte) : State :=
  ((s.withFb (s.rewrittenFb (csum16 hdr) (crc32 body))).withCsum (csumAcc hdr) (csum16 hdr)).withCrcreg
    (crcRun crcInit body)

/-- Both validations are passed and the flags field is read: its bytes are `hi` and `lo` (R80 S1 to S3). -/
structure State.FlagsRead (s : State) (hi lo : Byte) : Prop where
  long : 38 ≤ s.len
  ipv4 : s.readEtherType = .next etypeIpv4
  high : s.fb.lookup 20 = some hi
  low : s.fb.lookup 21 = some lo

/-- How MDF ends and with which state: the four exits of R80 and the end of the rewrite. -/
inductive MdfEnd (d : BitVec 1) (s : State) : State → Prop where
  | tooSmall : s.len < 38 → MdfEnd d s (s.finish .frameTooSmall)
  | foreign {et : Half} : 38 ≤ s.len → s.readEtherType = .next et → et ≠ etypeIpv4 → MdfEnd d s (s.finish .notIpv4)
  | unchanged {hi lo : Byte} : s.FlagsRead hi lo → newFlags d (hi ++ lo) = hi ++ lo →
      MdfEnd d s ((s.flagsLoaded d hi lo).finish .ok)
  | spanLeaves {hi lo b : Byte} : s.FlagsRead hi lo → newFlags d (hi ++ lo) ≠ hi ++ lo → s.fb.lookup 14 = some b →
      s.len < 14 + (spanOf (ihlOf b)).toNat →
      MdfEnd d s (((s.flagsLoaded d hi lo).spanLoaded b).finish .spanOutOfFrame)
  | rewritten {hi lo b : Byte} (hdr body : List Byte) : s.FlagsRead hi lo → newFlags d (hi ++ lo) ≠ hi ++ lo →
      s.fb.lookup 14 = some b → 14 + (spanOf (ihlOf b)).toNat ≤ s.len →
      MdfEnd d s ((((s.flagsLoaded d hi lo).spanLoaded b).rewritten hdr body).finish .ok)

/-- Everything the end of an operation can be, with the operands as bytes of FB; which bytes `hdr` and `body` are is left to
`State.rewrite_eq_next`. -/
theorem mdf_next_end {d : BitVec 1} {s t : State} (h : mdf d s = .next t) : MdfEnd d s t := by
  rcases mdf_next_cases h with ⟨hshort, rfl⟩ | ⟨hlong, et, htype, ⟨hforeign, rfl⟩ | ⟨rfl, s3, hflags, hcase⟩⟩
  · exact .tooSmall hshort
  · exact .foreign hlong htype hforeign
  obtain ⟨-, hi, lo, hhi, hlo, rfl⟩ := State.loadFlags_eq_next.mp hflags
  have hread : s.FlagsRead hi lo := ⟨hlong, htype, hhi, hlo⟩
  rcases hcase with ⟨hsame, rfl⟩ | ⟨hchanged, s5, hspan, hcase⟩
  · exact .unchanged hread hsame
  obtain ⟨-, b, hb, rfl⟩ := State.loadSpan_eq_next.mp hspan
  rcases hcase with ⟨hout, rfl⟩ | ⟨hfits, hrewrite⟩
  · exact .spanLeaves hread hchanged hb hout
  · obtain ⟨hdr, body, -, -, rfl⟩ := (State.rewrite_eq_next (by exact hlong)).mp hrewrite
    exact .rewritten hdr body hread hchanged hb hfits

/-! ## What an operation leaves unchanged -/

/-- `m` is what an operation may make of the content `m₀` of a buffer of `len` bytes: only the bytes at 20, 24 and 25 and
the last four can differ, and of byte 20 only bit 6 (R53, R91 item 6). -/
structure Memory.MovedByMdf (len : Nat) (m₀ m : Memory) : Prop where
  bytes : ∀ a, a ≠ fragOff → a ≠ csumOff → a ≠ csumOff + 1 → (a < fcsOff len ∨ len ≤ a) → m.lookup a = m₀.lookup a
  flags : ∀ b, m₀.lookup fragOff = some b → ∃ b', m.lookup fragOff = some b' ∧ b' &&& 0xBF#8 = b &&& 0xBF#8

theorem Memory.MovedByMdf.refl (len : Nat) (m : Memory) : Memory.MovedByMdf len m m :=
  ⟨fun _ _ _ _ _ => rfl, fun b h => ⟨b, h, rfl⟩⟩

/-- The rewrite moves no more than that: of NEW, byte 21 stores the byte read there, and byte 20 differs from the byte read
there in DF only. -/
theorem State.rewrittenFb_movedByMdf {s : State} {d : BitVec 1} {hi lo : Byte} (hlen : 38 ≤ s.len)
    (hhi : s.fb.lookup 20 = some hi) (hlo : s.fb.lookup 21 = some lo) (hnew : s.new = newFlags d (hi ++ lo)) (ck : Half)
    (c : Word) : Memory.MovedByMdf s.len s.fb (s.rewrittenFb ck c) where
  bytes a h20 h24 h25 hfcs := by
    rw [State.rewrittenFb_lookup hlen ck c h24 h25 hfcs, if_neg (show ¬ a = 20 from h20)]
    split
    case isTrue h21 => rw [h21, hlo, hnew, newFlags_low_byte]
    case isFalse => rfl
  flags b hb := by
    obtain rfl : hi = b := Option.some.inj (hhi.symm.trans hb)
    refine ⟨_, State.rewrittenFb_lookup hlen ck c (by decide) (by decide) (.inl ?_), ?_⟩
    · simp only [fragOff]; omega
    · rw [hnew]; exact newFlags_high_byte d hi lo

/-- Settles O22: of the ends that `mdf_next_end` knows only the rewrite stores anything. -/
theorem operationFrame : Obligations.OperationFrame := by
  intro i s t h
  rw [exec_eq_mdf] at h
  have hmoved : Memory.MovedByMdf s.len s.fb t.fb := by
    cases mdf_next_end h with
    | tooSmall | foreign | unchanged | spanLeaves => exact .refl _ _
    | @rewritten hi lo b _ _ hread =>
      exact State.rewrittenFb_movedByMdf (s := (s.flagsLoaded i.commandBit hi lo).spanLoaded b) hread.long hread.high
        hread.low rfl _ _
  cases mdf_next_end h with
  | tooSmall | foreign | unchanged | spanLeaves | rewritten =>
    exact ⟨rfl, rfl, rfl, rfl, rfl, rfl, hmoved.bytes, hmoved.flags⟩

/-! ## The exits -/

/-- Where the command needs no change of the frame, it leaves the flags field as it is (R85). -/
theorem State.newFlags_eq_self_of_not_needsChange {s : State} {i : Instr} {hi lo : Byte}
    (hhi : s.fb.lookup 20 = some hi) (hlo : s.fb.lookup 21 = some lo) (h : ¬ s.needsChange i) :
    newFlags i.commandBit (hi ++ lo) = hi ++ lo := by
  have hfield : s.peekHalf fragOff = hi ++ lo := by simp [State.peekHalf, State.peek, fragOff, hhi, hlo]
  rw [State.needsChange, not_not, hfield] at h
  exact newFlags_eq_self_of_dfBit h

/-- Settles O23: the rewrite ends with OK and only after a change, so the ends that are left are the exits, none of which
stores a byte or reaches the checksum and CRC units. -/
theorem exitsStoreNothing : Obligations.ExitsStoreNothing := by
  intro i s t h hexit
  rw [exec_eq_mdf] at h
  cases mdf_next_end h with
  | tooSmall | foreign => exact ⟨rfl, rfl, rfl, rfl, fun _ => ⟨rfl, rfl⟩, fun _ => ⟨rfl, rfl⟩⟩
  | unchanged =>
    exact ⟨rfl, rfl, rfl, rfl, fun _ => ⟨rfl, rfl⟩, fun hcode => by simp [Status.code] at hcode⟩
  | spanLeaves =>
    exact ⟨rfl, rfl, rfl, rfl, fun hcode => absurd rfl hcode, fun hcode => by simp [Status.code] at hcode⟩
  | rewritten _ _ hread hchanged =>
    rcases hexit with hcode | hsame
    · exact absurd rfl hcode
    · exact absurd (State.newFlags_eq_self_of_not_needsChange hread.high hread.low hsame) hchanged

end Sys2Proof.Machine
end

section
/-! The words of the block: the byte that holds a command, the four codes of STATUS, and the nibble that gives the checksum
span its length (spec/30_encoding.md R60 to R63, R68). -/

namespace Sys2Proof

/-! ## Command words -/

/-- A byte holds a command word exactly when it is its own bit 0, zero-extended (R60; log 17). -/
theorem commandByteWf_iff (b : Byte) : commandByteWf b = true ↔ b = (b.extractLsb' 0 1).setWidth 8 := by
  have := b.isLt
  simp only [commandByteWf, beq_iff_eq, ← BitVec.toNat_inj, BitVec.extractLsb'_toNat, BitVec.toNat_setWidth,
    BitVec.toNat_ofNat, Nat.shiftRight_eq_div_pow]
  omega

/-- The one bit of a command word survives its byte form. -/
theorem extractLsb'_setWidth_commandBit (d : BitVec 1) : (d.setWidth 8).extractLsb' 0 1 = d := by
  rcases BitVec.eq_zero_or_eq_one d with rfl | rfl <;> rfl

/-- The command map sends the command bit of a command back to that command (R61). -/
@[simp] theorem decodeCommand_commandBit (i : Instr) : decodeCommand i.commandBit = i := by
  cases i <;> rfl

theorem decode_cons_of_wf {b : Byte} (h : commandByteWf b = true) (rest : List Byte) :
    decode (b :: rest) = .ok (decodeCommand (b.extractLsb' 0 1), rest) := if_pos h

theorem decode_cons_of_not_wf {b : Byte} (h : ¬ commandByteWf b = true) (rest : List Byte) :
    decode (b :: rest) = .error .widerThanOneBit := if_neg h

/-- The decoder accepts exactly what the encoder writes (R60, R61; log 17). -/
theorem decode_eq_ok_iff {bytes rest : List Byte} {i : Instr} :
    decode bytes = .ok (i, rest) ↔ bytes = encode i ++ rest := by
  constructor
  · intro h
    cases bytes with
    | nil => cases h
    | cons b bs =>
      by_cases hwf : commandByteWf b = true
      · rw [decode_cons_of_wf hwf] at h
        cases h
        rw [encode, Machine.commandBit_decodeCommand, ← (commandByteWf_iff b).mp hwf]; rfl
      · rw [decode_cons_of_not_wf hwf] at h
        cases h
  · rintro rfl
    have hbit := extractLsb'_setWidth_commandBit i.commandBit
    have hwf : commandByteWf (i.commandBit.setWidth 8) = true := (commandByteWf_iff _).mpr (by rw [hbit])
    rw [encode, List.singleton_append, decode_cons_of_wf hwf, hbit, decodeCommand_commandBit]

/-- A table word decodes when it has a bit at all and its low byte is the command's byte: a wider word's other bytes are not
read. -/
theorem decodeTableWord_eq_some_iff {nbits w : Nat} {i : Instr} :
    decodeTableWord nbits w = some i ↔ 0 < nbits ∧ BitVec.ofNat 8 w = i.commandBit.setWidth 8 := by
  have hdecode : decodeTableWord nbits w = some i ↔ ∃ rest, decode (bytesOfWord ((nbits + 7) / 8) w) = .ok (i, rest) := by
    unfold decodeTableWord
    rcases decode (bytesOfWord ((nbits + 7) / 8) w) with _ | ⟨j, rest⟩ <;> simp
  simp only [hdecode, decode_eq_ok_iff]
  cases hn : (nbits + 7) / 8 with
  | zero =>
    have hzero : nbits = 0 := by omega
    simp [bytesOfWord, encode, hzero]
  | succ n =>
    have hpos : 0 < nbits := by omega
    simp [bytesOfWord, encode, hpos]

/-- Settles O1: the two directions of `decode_eq_ok_iff`, and the command map on the bit alone. -/
theorem commandWordsRoundTrip : Obligations.CommandWordsRoundTrip :=
  ⟨fun _ _ _ => decode_eq_ok_iff.mpr rfl, fun _ _ _ => decode_eq_ok_iff.mp, Machine.commandBit_decodeCommand⟩

/-- Settles O2: the two accepted words by what the decoder accepts, the byte 2 because its bit 1 is set. -/
theorem commandMapWords : Obligations.CommandMapWords :=
  ⟨decodeTableWord_eq_some_iff.mpr ⟨by decide, rfl⟩, decodeTableWord_eq_some_iff.mpr ⟨by decide, rfl⟩,
    decode_eq_ok_iff.mpr rfl, decode_eq_ok_iff.mpr rfl, decode_cons_of_not_wf (by decide) [], rfl⟩

end Sys2Proof

namespace Sys2Proof.Machine

/-! ## The table word that a step runs -/

/-- What SET_DF takes from a word of at least one bit is the word's bit 0 (R60). -/
theorem commandOfBits_of_pos {nbits : Nat} (h : 0 < nbits) (w : Nat) :
    commandOfBits nbits w = (BitVec.ofNat 8 w).extractLsb' 0 1 := by
  have hdvd : 2 ∣ 2 ^ nbits := dvd_pow_self 2 (by omega)
  have hmod : w % 2 ^ nbits % 2 = w % 2 := Nat.mod_mod_of_dvd w hdvd
  simp only [commandOfBits, ← BitVec.toNat_inj, BitVec.extractLsb'_toNat, BitVec.toNat_ofNat, Nat.shiftRight_zero]
  omega

@[simp] theorem State.withFetchWord_setDf (s : State) (nbits w : Nat) :
    (s.withFetchWord nbits w).setDf = commandOfBits nbits w := rfl

@[simp] theorem State.withFetchWord_phase (s : State) (nbits w : Nat) :
    (s.withFetchWord nbits w).phase = .checkLen := rfl

/-- The command in SET_DF after a table word is placed there is the one the word decodes to (log 9). -/
theorem State.withFetchWord_command {nbits w : Nat} {i : Instr} (h : decodeTableWord nbits w = some i) (s : State) :
    (s.withFetchWord nbits w).command = i := by
  obtain ⟨hpos, hbyte⟩ := decodeTableWord_eq_some_iff.mp h
  rw [State.command, State.withFetchWord_setDf, commandOfBits_of_pos hpos, hbyte, extractLsb'_setWidth_commandBit,
    decodeCommand_commandBit]

/-- Settles O4: START has left the block at CHECK_LEN, where a step runs the command in SET_DF. -/
theorem fetchWordRunsTableWord : Obligations.FetchWordRunsTableWord := by
  intro s nbits w i h
  rw [step_of_checkLen (s.withFetchWord_phase nbits w), State.withFetchWord_command h]

/-! ## IHL and SPAN -/

/-- IHL is the low nibble of the byte (R68). -/
theorem ihlOf_toNat (b : Byte) : (ihlOf b).toNat = b.toNat % 16 := by
  rw [ihlOf, BitVec.extractLsb'_toNat, Nat.shiftRight_zero]

/-- Settles O41: `loadSpan_eq_next` names the next state, whose SPAN is four times a nibble. -/
theorem spanIsFourTimesIhl : Obligations.SpanIsFourTimesIhl := by
  intro s b hlen hb
  have hspan : (spanOf (ihlOf b)).toNat = 4 * (b.toNat % 16) := by rw [spanOf_toNat, ihlOf_toNat]
  refine ⟨_, State.loadSpan_eq_next.mpr ⟨hlen, b, hb, rfl⟩, ihlOf_toNat b, hspan, ?_, rfl⟩
  rw [State.withSpan_span, hspan]
  omega

/-! ## The status codes -/

/-- Every 2-bit value is the code of an outcome: none is reserved (R63). -/
theorem Status.code_surjective : Function.Surjective Status.code := fun v =>
  match v with
  | 0#2 => ⟨.ok, rfl⟩
  | 1#2 => ⟨.frameTooSmall, rfl⟩
  | 2#2 => ⟨.notIpv4, rfl⟩
  | 3#2 => ⟨.spanOutOfFrame, rfl⟩

/-- Settles O42: the four codes by definition, and `Status.code_surjective` that none is left over. -/
theorem statusCodes : Obligations.StatusCodes := ⟨rfl, rfl, rfl, rfl, Status.code_surjective⟩

end Sys2Proof.Machine
end

section
/-! The flags field with DF forced, and the two exits after it is read: DF already as asked, and a span that does not
fit (spec/40_df_mutator.md R80, R85 to R87; spec/60_exceptions.md R123). -/

namespace Sys2Proof.Machine

/-! ## NEW against OLD -/

section
variable {d : BitVec 1} {f : Half}

/-- DF is bit 14 of the flags field (R66). -/
theorem dfBit_eq_iff : dfBit f = d ↔ f.getLsbD 14 = (d == 1#1) := by
  have hdf : (dfBit f).getLsbD 0 = f.getLsbD 14 := BitVec.getLsbD_extractLsb' ..
  have hone : ∀ x y : BitVec 1, x = y ↔ x.getLsbD 0 = (y == 1#1) := by decide
  rw [← hdf]
  exact hone _ _

@[simp] theorem dfBit_newFlags (d : BitVec 1) (f : Half) : dfBit (newFlags d f) = d := by
  rw [dfBit_eq_iff, newFlags_getLsbD, if_pos rfl]

/-- NEW = OLD exactly when DF already has its value (R85). -/
theorem newFlags_eq_self_iff : newFlags d f = f ↔ dfBit f = d :=
  ⟨fun h => by rw [← h, dfBit_newFlags], newFlags_eq_self_of_dfBit⟩

/-- Of two commands the second one stands. -/
theorem newFlags_newFlags (d e : BitVec 1) (f : Half) : newFlags d (newFlags e f) = newFlags d f := by
  refine BitVec.eq_of_getLsbD_eq fun k _ => ?_
  rw [newFlags_getLsbD, newFlags_getLsbD, newFlags_getLsbD]
  split <;> rfl

/-- Otherwise forcing DF flips it (R85). -/
theorem newFlags_eq_xor (h : dfBit f ≠ d) : newFlags d f = f ^^^ 0x4000#16 := by
  have hmask : 0x4000#16 = BitVec.twoPow 16 14 := by decide
  refine BitVec.eq_of_getLsbD_eq fun k hk => ?_
  rw [newFlags_getLsbD, BitVec.getLsbD_xor, hmask, BitVec.getLsbD_twoPow]
  by_cases h14 : k = 14
  · have hbit : f.getLsbD 14 ≠ (d == 1#1) := mt dfBit_eq_iff.mpr h
    subst h14
    simpa using (Bool.eq_not_of_ne hbit).symm
  · simp [h14, Ne.symm h14]

end

/-- Settles O40: bit by bit `newFlags_getLsbD`, and the read of the field by what `loadFlags` answers. -/
theorem newFlagsForceDfOnly : Obligations.NewFlagsForceDfOnly := by
  refine ⟨fun d f => ⟨?_, fun k hk => ?_, ?_, fun h => ?_⟩, fun s d hi lo hlen hhi hlo => ?_⟩
  · rw [newFlags_getLsbD, if_pos rfl]
  · rw [newFlags_getLsbD, if_neg hk]
  · rw [newFlags_eq_self_iff, dfBit_eq_iff]
  · exact newFlags_eq_xor (mt dfBit_eq_iff.mp h)
  · exact State.loadFlags_eq_next.mpr ⟨hlen, hi, lo, hhi, hlo, rfl⟩

/-! ## The exits after the flags field is read -/

section
variable {s : State} {d : BitVec 1} {hi lo b : Byte}

/-- The bytes that the validations and S3 look at, as the caller has placed them. -/
theorem State.FlagsRead.of_bytes (hlen : 38 ≤ s.len) (h12 : s.fb.lookup 12 = some 0x08#8)
    (h13 : s.fb.lookup 13 = some 0x00#8) (h20 : s.fb.lookup 20 = some hi) (h21 : s.fb.lookup 21 = some lo) :
    s.FlagsRead hi lo :=
  ⟨hlen, State.readEtherType_eq_next.mpr ⟨by omega, _, _, h12, h13, rfl⟩, h20, h21⟩

theorem State.FlagsRead.loadFlags (h : s.FlagsRead hi lo) (d : BitVec 1) :
    s.loadFlags d = .next (s.flagsLoaded d hi lo) :=
  State.loadFlags_eq_next.mpr ⟨by have := h.long; omega, hi, lo, h.high, h.low, rfl⟩

/-- DF already as asked: the operation ends when NEW has been computed (R80 S4, R86). -/
theorem State.FlagsRead.mdf_unchanged (h : s.FlagsRead hi lo) (hsame : newFlags d (hi ++ lo) = hi ++ lo) :
    mdf d s = .next ((s.flagsLoaded d hi lo).finish .ok) :=
  mdf_eq_next.mpr (.inr ⟨h.long, _, h.ipv4, .inr ⟨rfl, _, h.loadFlags d, .inl ⟨hsame, rfl⟩⟩⟩)

/-- A span that does not fit: the operation ends when IHL and SPAN have been loaded (R80 S5, R87). -/
theorem State.FlagsRead.mdf_spanLeaves (h : s.FlagsRead hi lo) (hchanged : newFlags d (hi ++ lo) ≠ hi ++ lo)
    (h14 : s.fb.lookup 14 = some b) (hout : s.len < 14 + (spanOf (ihlOf b)).toNat) :
    mdf d s = .next (((s.flagsLoaded d hi lo).spanLoaded b).finish .spanOutOfFrame) := by
  have hspan : (s.flagsLoaded d hi lo).loadSpan = .next ((s.flagsLoaded d hi lo).spanLoaded b) :=
    State.loadSpan_eq_next.mpr ⟨Nat.lt_of_lt_of_le (by decide) h.long, b, h14, rfl⟩
  exact mdf_eq_next.mpr (.inr ⟨h.long, _, h.ipv4, .inr ⟨rfl, _, h.loadFlags d, .inr ⟨hchanged, _, hspan,
    .inl ⟨hout, rfl⟩⟩⟩⟩)

end

/-- Settles O10: the exit of S4, where NEW is OLD. -/
theorem unchangedFrameSucceeds : Obligations.UnchangedFrameSucceeds := by
  intro i s hi lo hlen h12 h13 h20 h21 hdf
  have hsame : newFlags i.commandBit (hi ++ lo) = hi ++ lo := newFlags_eq_self_iff.mpr (dfBit_eq_iff.mpr hdf)
  rw [exec_eq_mdf, (State.FlagsRead.of_bytes hlen h12 h13 h20 h21).mdf_unchanged hsame, State.flagsLoaded, hsame]
  rfl

/-- Of the ends of an operation only the span check gives code 3; SPAN is four times a nibble, and LEN at least 38. -/
theorem mdf_spanOutOfFrame_bounds {d : BitVec 1} {s t : State} (h : mdf d s = .next t)
    (hstatus : t.status = Status.spanOutOfFrame.code) :
    38 ≤ s.len ∧ s.len ≤ 73 ∧ 7 ≤ (ihlOf (s.peek ipOff)).toNat := by
  cases mdf_next_end h with
  | tooSmall | foreign | unchanged | rewritten => simp [Status.code] at hstatus
  | @spanLeaves _ _ b hread _ h14 hout =>
    have hpeek : s.peek ipOff = b := by rw [State.peek, ipOff, h14]; rfl
    have hlong := hread.long
    have hnibble := (ihlOf b).isLt
    rw [spanOf_toNat] at hout
    rw [hpeek]
    omega

/-- Settles O11: the exit of S5 with OLD ≠ NEW, and `mdf_spanOutOfFrame_bounds`. -/
theorem spanOutOfFrameFails : Obligations.SpanOutOfFrameFails := by
  refine ⟨fun i s hi lo b hlen h12 h13 h14 h20 h21 hdf hout => ?_, fun i s t h hstatus => ?_⟩
  · have hne : dfBit (hi ++ lo) ≠ i.commandBit := mt dfBit_eq_iff.mp hdf
    rw [exec_eq_mdf, (State.FlagsRead.of_bytes hlen h12 h13 h20 h21).mdf_spanLeaves (mt newFlags_eq_self_iff.mp hne) h14
      (by rw [spanOf_toNat]; exact hout), State.flagsLoaded, newFlags_eq_xor hne]
    rfl
  · rw [exec_eq_mdf] at h
    exact mdf_spanOutOfFrame_bounds h hstatus

end Sys2Proof.Machine
end

section
/-! CSUM16 as arithmetic: ACC holds the sum of the words, two folds bring it into one's-complement form, and a rewritten
field moves the sum by the difference of its values (spec/41_ipv4_checksum.md R100 to R106). -/

namespace Sys2Proof.Machine

/-! ## The sum of the words -/

/-- A 16-bit word is its high byte times 256 and its low byte (R101). -/
theorem toNat_word (hi lo : Byte) : (hi ++ lo : Half).toNat = hi.toNat * 256 + lo.toNat := by
  rw [BitVec.toNat_append, ← Nat.shiftLeft_add_eq_or_of_lt lo.isLt, Nat.shiftLeft_eq]

/-- ACC is the sum of the words modulo 2^32 (R103). -/
theorem csumWords_toNat (acc : Word) (s : List Byte) : (csumWords acc s).toNat = (acc.toNat + wordSum s) % 2 ^ 32 := by
  induction acc, s using csumWords.induct with
  | case1 acc =>
    have := acc.isLt
    simp only [csumWords, wordSum]; omega
  | case2 acc b =>
    simp only [csumWords, wordSum, BitVec.toNat_add, BitVec.toNat_setWidth, toNat_word, BitVec.toNat_ofNat]
    omega
  | case3 acc hi lo rest ih =>
    simp only [csumWords, wordSum, ih, BitVec.toNat_add, BitVec.toNat_setWidth, toNat_word]
    omega

/-- Each word adds at most 0xFFFF (R103). -/
theorem wordSum_le (s : List Byte) : wordSum s ≤ 65535 * ((s.length + 1) / 2) := by
  induction s using wordSum.induct with
  | case1 => simp [wordSum]
  | case2 b => have := b.isLt; simp only [wordSum, List.length_singleton]; omega
  | case3 hi lo rest ih =>
    have := hi.isLt
    have := lo.isLt
    simp only [wordSum, List.length_cons]; omega

/-- Only zero bytes sum to zero (R106 law 2). -/
theorem wordSum_eq_zero_iff {s : List Byte} : wordSum s = 0 ↔ ∀ b ∈ s, b = 0#8 := by
  have hbyte (b : Byte) : b.toNat = 0 ↔ b = 0#8 := by
    rw [← BitVec.toNat_inj]; rfl
  induction s using wordSum.induct with
  | case1 => simp [wordSum]
  | case2 b => simp [wordSum, hbyte]
  | case3 hi lo rest ih => simp [wordSum, hbyte, ih, and_assoc]

/-- A 16-bit field rewritten at a word's place moves the sum by the difference of its values (R106 law 6). -/
theorem wordSum_frameSetHalf {s : List Byte} {a : Nat} (v : Half) (heven : a % 2 = 0) (ha : a + 1 < s.length) :
    wordSum (frameSetHalf s a v) + (frameHalf s a).toNat = wordSum s + v.toNat := by
  induction s using wordSum.induct generalizing a with
  | case1 => simp at ha
  | case2 b => simp at ha
  | case3 hi lo rest ih =>
    match a with
    | 0 =>
      have hv : (v.extractLsb' 8 8).toNat * 256 + (v.extractLsb' 0 8).toNat = v.toNat := by
        have := v.isLt
        simp only [BitVec.extractLsb'_toNat, Nat.shiftRight_eq_div_pow]; omega
      change (v.extractLsb' 8 8).toNat * 256 + (v.extractLsb' 0 8).toNat + wordSum rest + (hi ++ lo : Half).toNat =
        hi.toNat * 256 + lo.toNat + wordSum rest + v.toNat
      rw [toNat_word, ← hv]
      ring
    | 1 => simp at heven
    | a + 2 =>
      have hrest := ih (a := a) (by omega) (by simp only [List.length_cons] at ha; omega)
      simp only [frameSetHalf, frameHalf, List.set_cons_succ, List.getD_cons_succ, wordSum] at hrest ⊢
      omega

/-! ## The two folds -/

/-- One fold, as a number: the high half of ACC added to its low half (R100). -/
theorem csumFold_toNat (acc : Word) : (csumFold acc).toNat = acc.toNat / 65536 + acc.toNat % 65536 := by
  have hhigh : acc.toNat / 65536 < 65536 := by have := acc.isLt; omega
  simp only [csumFold, BitVec.toNat_add, BitVec.toNat_setWidth, BitVec.extractLsb'_toNat, Nat.shiftRight_eq_div_pow,
    Nat.reducePow, Nat.div_one, Nat.mod_eq_of_lt hhigh]
  omega

/-- Two folds are the end-around carry: they keep the residue modulo 0xFFFF and give 0 for 0 only (R104, R106 law 1). -/
theorem csumFold_csumFold_toNat (acc : Word) : (csumFold (csumFold acc)).toNat = endAround acc.toNat := by
  have := acc.isLt
  rw [csumFold_toNat, csumFold_toNat, endAround]
  split <;> omega

theorem endAround_le (x : Nat) : endAround x ≤ 65535 := by
  rw [endAround]; split <;> omega

/-- CSUM16 is 0xFFFF less the one's-complement sum of the words, for every sequence whose sum ACC can hold (R105, R106
law 1). -/
theorem csum16_toNat {s : List Byte} (hlen : s.length ≤ 131074) : (csum16 s).toNat = 65535 - endAround (wordSum s) := by
  have hacc : (csumWords 0#32 s).toNat = wordSum s := by
    have hle := wordSum_le s
    rw [csumWords_toNat, BitVec.toNat_ofNat]
    omega
  have hle := endAround_le (wordSum s)
  rw [csum16, csumResult, csumAcc, BitVec.toNat_not, BitVec.extractLsb'_toNat, csumFold_csumFold_toNat, hacc,
    Nat.shiftRight_zero]
  omega

/-- The sum of the words and the checksum together are zero in one's-complement arithmetic (R106 law 6). -/
theorem csum16_add_wordSum {s : List Byte} (hlen : s.length ≤ 131074) :
    ((csum16 s).toNat + wordSum s) % 65535 = 0 := by
  rw [csum16_toNat hlen, endAround]
  split <;> omega

/-- A non-zero sum that is zero in one's-complement arithmetic has the checksum 0 (R106 law 2). -/
theorem csum16_eq_zero {s : List Byte} (hlen : s.length ≤ 131074) (hsum : wordSum s ≠ 0)
    (hmod : wordSum s % 65535 = 0) : csum16 s = 0x0000#16 := by
  refine BitVec.eq_of_toNat_eq ?_
  rw [csum16_toNat hlen, endAround, if_neg hsum, BitVec.toNat_ofNat]
  omega

/-- The checksum stored in its zeroed field makes the sequence sum to zero (R106 law 3). -/
theorem csum16_frameSetHalf_csum16 {s : List Byte} {a : Nat} (hlen : s.length ≤ 131074) (heven : a % 2 = 0)
    (ha : a + 1 < s.length) (hzero : frameHalf s a = 0x0000#16) (hsum : wordSum s ≠ 0) :
    csum16 (frameSetHalf s a (csum16 s)) = 0x0000#16 := by
  have hstored := wordSum_frameSetHalf (csum16 s) heven ha
  have hmod := csum16_add_wordSum hlen
  rw [hzero, BitVec.toNat_ofNat] at hstored
  exact csum16_eq_zero (by rw [frameSetHalf_length]; exact hlen) (by omega) (by omega)

/-- Rewriting a 16-bit field moves the checksum by the opposite amount, in one's-complement arithmetic (R106 law 6). -/
theorem csum16_frameSetHalf_mod {s : List Byte} {a : Nat} (v : Half) (hlen : s.length ≤ 131074) (heven : a % 2 = 0)
    (ha : a + 1 < s.length) :
    ((csum16 (frameSetHalf s a v)).toNat + v.toNat) % 65535 =
      ((csum16 s).toNat + (frameHalf s a).toNat) % 65535 := by
  have hmoved := wordSum_frameSetHalf v heven ha
  have hold := csum16_add_wordSum hlen
  have hnew := csum16_add_wordSum (s := frameSetHalf s a v) (by rw [frameSetHalf_length]; exact hlen)
  omega

end Sys2Proof.Machine
end

section
/-! Frames as lists of bytes: their 16-bit fields, the checksum span, the body that the FCS covers; and the frame that a
changing operation makes, which neither the old checksum nor the old FCS can influence (spec/30_encoding.md R65 to R68;
spec/40_df_mutator.md R88 to R91). -/

namespace Sys2Proof.Machine

/-! ## The 16-bit fields of a frame -/

/-- A 16-bit value is its high byte and its low byte. -/
@[simp] theorem half_of_bytes (v : Half) : v.extractLsb' 8 8 ++ v.extractLsb' 0 8 = v :=
  (BitVec.extractLsb'_append_extractLsb'_eq_extractLsb' rfl).trans BitVec.extractLsb'_eq_self

section
variable {fb : List Byte} {a b : Nat}

theorem frameHalf_frameSetHalf (v : Half) (ha : a + 1 < fb.length) : frameHalf (frameSetHalf fb a v) a = v := by
  have h0 : a < fb.length := Nat.lt_of_succ_lt ha
  simp [frameHalf, frameSetHalf, List.getD_eq_getElem?_getD, ha, h0]

/-- A field is not moved by a write to a field that it does not overlap. -/
theorem frameHalf_frameSetHalf_of_disjoint (v : Half) (h : a + 1 < b ∨ b + 1 < a) :
    frameHalf (frameSetHalf fb a v) b = frameHalf fb b := by
  simp only [frameHalf, frameSetHalf, List.getD_eq_getElem?_getD]
  rw [List.getElem?_set_ne (by omega), List.getElem?_set_ne (by omega), List.getElem?_set_ne (by omega),
    List.getElem?_set_ne (by omega)]

theorem frameSetHalf_frameSetHalf (v w : Half) : frameSetHalf (frameSetHalf fb a v) a w = frameSetHalf fb a w := by
  simp only [frameSetHalf]
  rw [List.set_comm (i := a + 1) (j := a) _ _ (by omega), List.set_set, List.set_set]

theorem frameSetHalf_comm (v w : Half) (h : a + 1 < b) :
    frameSetHalf (frameSetHalf fb a v) b w = frameSetHalf (frameSetHalf fb b w) a v := by
  simp only [frameSetHalf]
  rw [List.set_comm (i := a + 1) (j := b) _ _ (by omega), List.set_comm (i := a) (j := b) _ _ (by omega),
    List.set_comm (i := a + 1) (j := b + 1) _ _ (by omega), List.set_comm (i := a) (j := b + 1) _ _ (by omega)]

/-- A field written with its own value leaves the frame as it is. -/
theorem frameSetHalf_frameHalf (ha : a + 1 < fb.length) : frameSetHalf fb a (frameHalf fb a) = fb := by
  have h0 : a < fb.length := Nat.lt_of_succ_lt ha
  simp only [frameSetHalf, frameHalf, BitVec.extractLsb'_append_eq_left, BitVec.extractLsb'_append_eq_right,
    List.getD_eq_getElem?_getD, List.getElem?_eq_getElem ha, List.getElem?_eq_getElem h0, Option.getD_some,
    List.set_getElem_self]

end

/-! ## The checksum span -/

section
variable {fb : List Byte} {a n : Nat}

/-- The span of a frame whose length is cut behind the first header byte is the span of the frame. -/
theorem frameSpan_take (hn : ipOff < n) : frameSpan (fb.take n) = frameSpan fb := by
  rw [frameSpan, frameIhl, List.getD_eq_getElem?_getD, List.getElem?_take_of_lt hn, ← List.getD_eq_getElem?_getD]; rfl

/-- A span that lies in the first `n` bytes is a span of those. -/
theorem frameHeader_take (hn : ipOff < n) (hfits : ipOff + frameSpan fb ≤ n) :
    frameHeader (fb.take n) = frameHeader fb := by
  rw [frameHeader, frameSpan_take hn, List.drop_take, List.take_take, Nat.min_eq_left (by omega)]; rfl

theorem frameHalf_take (hn : a + 1 < n) : frameHalf (fb.take n) a = frameHalf fb a := by
  simp only [frameHalf, List.getD_eq_getElem?_getD]
  rw [List.getElem?_take_of_lt (Nat.lt_of_succ_lt hn), List.getElem?_take_of_lt hn]

theorem frameHeader_length (hfits : ipOff + frameSpan fb ≤ fb.length) : (frameHeader fb).length = frameSpan fb := by
  simp only [frameHeader, List.length_take, List.length_drop]
  omega

/-- The span is at most 60 bytes (R68). -/
theorem frameSpan_le (fb : List Byte) : frameSpan fb ≤ 60 := by
  have hnibble : frameIhl fb < 16 := BitVec.isLt _
  rw [frameSpan]
  omega

/-- A field of the frame behind the first header byte is the field of the header that lies there. -/
theorem frameHeader_frameSetHalf (v : Half) (ha : ipOff < a) :
    frameHeader (frameSetHalf fb a v) = frameSetHalf (frameHeader fb) (a - ipOff) v := by
  rw [frameHeader, frameSpan_frameSetHalf _ _ ha, frameHeader, frameSetHalf, frameSetHalf,
    List.drop_set, if_neg (by omega), List.drop_set, if_neg (by omega), List.take_set, List.take_set,
    Nat.sub_add_comm (Nat.le_of_lt ha)]

theorem frameHalf_frameHeader (ha : ipOff ≤ a) (hspan : a + 1 < ipOff + frameSpan fb) :
    frameHalf (frameHeader fb) (a - ipOff) = frameHalf fb a := by
  simp only [frameHalf, frameHeader, List.getD_eq_getElem?_getD]
  rw [List.getElem?_take_of_lt (by omega), List.getElem?_take_of_lt (by omega), List.getElem?_drop,
    List.getElem?_drop, ← Nat.add_assoc, Nat.add_sub_cancel' ha]

/-- The first byte of a span that is not empty holds the IHL, so the span does not sum to zero. -/
theorem wordSum_frameHeader_ne_zero (hlen : ipOff < fb.length) (hspan : frameSpan fb ≠ 0) :
    wordSum (frameHeader fb) ≠ 0 := by
  intro hsum
  have hfirst : fb.getD ipOff 0#8 ∈ frameHeader fb := by
    refine List.mem_of_getElem? (i := 0) ?_
    rw [frameHeader, List.getElem?_take_of_lt (by omega), List.getElem?_drop, Nat.add_zero,
      List.getD_eq_getElem?_getD, List.getElem?_eq_getElem hlen, Option.getD_some]
  have hzero := wordSum_eq_zero_iff.mp hsum _ hfirst
  exact hspan (by rw [frameSpan, frameIhl, hzero]; rfl)

end

/-! ## The body and the FCS -/

section
variable {fb : List Byte}

/-- A field is written in the body exactly as in the frame. -/
theorem frameBody_frameSetHalf (fb : List Byte) (a : Nat) (v : Half) :
    frameBody (frameSetHalf fb a v) = frameSetHalf (frameBody fb) a v := by
  simp only [frameBody, frameSetHalf_length]
  rw [frameSetHalf, List.take_set, List.take_set]; rfl

theorem frameBody_append_frameFcs (fb : List Byte) : frameBody fb ++ frameFcs fb = fb := List.take_append_drop _ _

theorem frameBody_frameWithFcs (hlen : 4 ≤ fb.length) : frameBody (frameWithFcs fb) = frameBody fb := by
  rw [frameBody, frameWithFcs_length hlen, frameWithFcs, List.take_left' (by simp [frameBody, fcsOff])]

theorem frameFcs_frameWithFcs (hlen : 4 ≤ fb.length) :
    frameFcs (frameWithFcs fb) = wordBytes (crc32 (frameBody fb)) := by
  rw [frameFcs, frameWithFcs_length hlen, frameWithFcs, List.drop_left' (by simp [frameBody, fcsOff])]

end

/-! ## The frame sealed: checksum and FCS recomputed -/

/-- The frame with its checksum recomputed (R88). -/
def frameSummed (fb : List Byte) : List Byte :=
  frameSetHalf fb csumOff (csum16 (frameHeader (frameSetHalf fb csumOff 0x0000#16)))

/-- The frame with its checksum and then its FCS recomputed (R88, R89). -/
def frameSealed (fb : List Byte) : List Byte := frameWithFcs (frameSummed fb)

/-- What a sealed frame depends on: the bytes before the FCS, the checksum taken as zero. -/
def frameBlank (fb : List Byte) : List Byte := frameBody (frameSetHalf fb csumOff 0x0000#16)

/-- A written field leaves a frame as long as it was, 38 bytes or more. -/
theorem frameSetHalf_long {fb : List Byte} {a : Nat} {v : Half} (hlen : 38 ≤ fb.length) :
    38 ≤ (frameSetHalf fb a v).length := by
  rw [frameSetHalf_length]; exact hlen

@[simp] theorem frameSummed_length (fb : List Byte) : (frameSummed fb).length = fb.length :=
  frameSetHalf_length _ _ _

/-- The flags field rewritten and the checksum recomputed over it, as R88 has it. -/
theorem frameWithChecksum_eq_frameSummed (fb : List Byte) (new : Half) :
    frameWithChecksum fb new = frameSummed (frameSetHalf fb fragOff new) := frameSetHalf_frameSetHalf _ _

section
variable {fb gb : List Byte} {a : Nat}

theorem frameSealed_length (hlen : 38 ≤ fb.length) : (frameSealed fb).length = fb.length := by
  rw [frameSealed, frameWithFcs_length (by rw [frameSummed_length]; omega), frameSummed_length]

theorem frameSealed_long (hlen : 38 ≤ fb.length) : 38 ≤ (frameSealed fb).length := by
  rw [frameSealed_length hlen]; exact hlen

theorem frameBody_frameSealed (hlen : 38 ≤ fb.length) : frameBody (frameSealed fb) = frameBody (frameSummed fb) :=
  frameBody_frameWithFcs (by rw [frameSummed_length]; omega)

/-- In a frame of 38 bytes or more the fields of the header are those of the body. -/
theorem frameHalf_frameBody (hlen : 38 ≤ fb.length) (ha : a ≤ csumOff) :
    frameHalf (frameBody fb) a = frameHalf fb a := by
  simp only [csumOff] at ha
  exact frameHalf_take (by simp only [fcsOff, fcsLen]; omega)

theorem frameSpan_frameBody (hlen : 38 ≤ fb.length) : frameSpan (frameBody fb) = frameSpan fb :=
  frameSpan_take (by simp only [fcsOff, fcsLen, ipOff]; omega)

theorem frameHeader_frameBody (hlen : 38 ≤ fb.length) (hfits : ipOff + frameSpan fb ≤ fcsOff fb.length) :
    frameHeader (frameBody fb) = frameHeader fb :=
  frameHeader_take (by simp only [fcsOff, fcsLen, ipOff]; omega) hfits

/-- The fields before the checksum are those of the blanked frame. -/
theorem frameHalf_frameBlank (hlen : 38 ≤ fb.length) (ha : a + 1 < csumOff) :
    frameHalf (frameBlank fb) a = frameHalf fb a := by
  rw [frameBlank, frameHalf_frameBody (frameSetHalf_long hlen) (by omega),
    frameHalf_frameSetHalf_of_disjoint _ (.inr ha)]

theorem frameSpan_frameBlank (hlen : 38 ≤ fb.length) : frameSpan (frameBlank fb) = frameSpan fb := by
  rw [frameBlank, frameSpan_frameBody (frameSetHalf_long hlen), frameSpan_frameSetHalf _ _ (by decide)]

theorem frameBlank_frameSetHalf (fb : List Byte) (v : Half) (ha : a + 1 < csumOff) :
    frameBlank (frameSetHalf fb a v) = frameSetHalf (frameBlank fb) a v := by
  rw [frameBlank, frameSetHalf_comm _ _ ha, frameBody_frameSetHalf]; rfl

/-- A span that does not reach the FCS is summed over the blanked frame. -/
theorem frameHeader_frameBlank (hlen : 38 ≤ fb.length) (hfits : ipOff + frameSpan fb ≤ fcsOff fb.length) :
    frameHeader (frameBlank fb) = frameHeader (frameSetHalf fb csumOff 0x0000#16) :=
  frameHeader_frameBody (frameSetHalf_long hlen)
    (by rw [frameSpan_frameSetHalf _ _ (by decide), frameSetHalf_length]; exact hfits)

/-- Sealing a frame moves the checksum and the FCS only. -/
theorem frameBlank_frameSealed (hlen : 38 ≤ fb.length) : frameBlank (frameSealed fb) = frameBlank fb := by
  rw [frameBlank, frameBody_frameSetHalf, frameBody_frameSealed hlen, frameSummed, frameBody_frameSetHalf,
    frameSetHalf_frameSetHalf, ← frameBody_frameSetHalf]; rfl

/-- The body of a sealed frame is the blanked frame with its checksum. -/
theorem frameBody_frameSummed (hlen : 38 ≤ fb.length) (hfits : ipOff + frameSpan fb ≤ fcsOff fb.length) :
    frameBody (frameSummed fb) = frameSetHalf (frameBlank fb) csumOff (csum16 (frameHeader (frameBlank fb))) := by
  rw [frameSummed, frameHeader_frameBlank hlen hfits, frameBlank, ← frameBody_frameSetHalf, frameSetHalf_frameSetHalf]

/-- Frames that differ in checksum and FCS only are sealed alike, where the span does not reach the FCS (R88, R89). -/
theorem frameSealed_congr (hlen : 38 ≤ fb.length) (hfits : ipOff + frameSpan fb ≤ fcsOff fb.length)
    (hlength : fb.length = gb.length) (hblank : frameBlank fb = frameBlank gb) : frameSealed fb = frameSealed gb := by
  have hlen' : 38 ≤ gb.length := hlength ▸ hlen
  have hspan : frameSpan fb = frameSpan gb := by
    rw [← frameSpan_frameBlank hlen, hblank, frameSpan_frameBlank hlen']
  have hbody : frameBody (frameSummed fb) = frameBody (frameSummed gb) := by
    rw [frameBody_frameSummed hlen hfits, frameBody_frameSummed hlen' (hlength ▸ hspan ▸ hfits), hblank]
  rw [frameSealed, frameSealed, frameWithFcs, frameWithFcs, hbody]

/-- Sealing leaves the fields before the checksum. -/
theorem frameHalf_frameSealed (hlen : 38 ≤ fb.length) (ha : a + 1 < csumOff) :
    frameHalf (frameSealed fb) a = frameHalf fb a := by
  rw [← frameHalf_frameBlank (frameSealed_long hlen) ha, frameBlank_frameSealed hlen,
    frameHalf_frameBlank hlen ha]

theorem frameSpan_frameSealed (hlen : 38 ≤ fb.length) : frameSpan (frameSealed fb) = frameSpan fb := by
  rw [← frameSpan_frameBlank (frameSealed_long hlen), frameBlank_frameSealed hlen,
    frameSpan_frameBlank hlen]

/-- The checksum of a sealed frame (R88). -/
theorem frameHalf_csumOff_frameSealed (hlen : 38 ≤ fb.length) :
    frameHalf (frameSealed fb) csumOff = csum16 (frameHeader (frameSetHalf fb csumOff 0x0000#16)) := by
  rw [← frameHalf_frameBody (frameSealed_long hlen) le_rfl, frameBody_frameSealed hlen,
    frameHalf_frameBody (by rw [frameSummed_length]; exact hlen) le_rfl, frameSummed,
    frameHalf_frameSetHalf _ (by simp only [csumOff]; omega)]

/-- The FCS of a sealed frame is the CRC-32 of its body (R89). -/
theorem frameFcs_frameSealed (hlen : 38 ≤ fb.length) :
    frameFcs (frameSealed fb) = wordBytes (crc32 (frameBody (frameSealed fb))) := by
  rw [frameBody_frameSealed hlen, frameSealed, frameFcs_frameWithFcs (by rw [frameSummed_length]; omega)]

/-- The header of a sealed frame is that of the blanked frame with its checksum in place. -/
theorem frameHeader_frameSealed (hlen : 38 ≤ fb.length) (hfits : ipOff + frameSpan fb ≤ fcsOff fb.length) :
    frameHeader (frameSealed fb) =
      frameSetHalf (frameHeader (frameBlank fb)) 10 (csum16 (frameHeader (frameBlank fb))) := by
  have hsealed := frameHeader_frameBody (fb := frameSealed fb) (frameSealed_long hlen)
    (by rw [frameSpan_frameSealed hlen, frameSealed_length hlen]; exact hfits)
  rw [← hsealed, frameBody_frameSealed hlen, frameBody_frameSummed hlen hfits, frameHeader_frameSetHalf _ (by decide)]
  rfl

/-- The header of a sealed regular frame sums to zero (R91 item 2; R106 law 3). -/
theorem csum16_frameHeader_frameSealed (h : regularFrame fb) : csum16 (frameHeader (frameSealed fb)) = 0x0000#16 := by
  obtain ⟨hlen, -, hihl, hfits⟩ := h
  rw [minLen_eq] at hlen
  have hspan : frameSpan (frameBlank fb) = frameSpan fb := frameSpan_frameBlank hlen
  have hspan20 : 20 ≤ frameSpan fb := by rw [frameSpan]; omega
  have hspan60 := frameSpan_le fb
  have hblank : (frameBlank fb).length = fcsOff fb.length := by simp [frameBlank, frameBody, fcsOff]
  have hlength : (frameHeader (frameBlank fb)).length = frameSpan fb := by
    rw [frameHeader_length (by rw [hspan, hblank]; exact hfits), hspan]
  have hzero : frameHalf (frameHeader (frameBlank fb)) 10 = 0x0000#16 := by
    have hwithin : csumOff + 1 < ipOff + frameSpan (frameBlank fb) := by rw [hspan]; simp only [csumOff, ipOff]; omega
    refine (frameHalf_frameHeader (by decide) hwithin).trans ?_
    rw [frameBlank, frameBody_frameSetHalf, frameHalf_frameSetHalf]
    simp only [frameBody, fcsOff, fcsLen, csumOff, List.length_take]; omega
  rw [frameHeader_frameSealed hlen hfits]
  refine csum16_frameSetHalf_csum16 (by omega) rfl (by omega) hzero (wordSum_frameHeader_ne_zero ?_ (by omega))
  rw [hblank]; simp only [ipOff, fcsOff, fcsLen]; omega

/-- The regular frames that are sealed already are the consistent ones (R91). -/
theorem frameSealed_eq_self_iff (h : regularFrame fb) : frameSealed fb = fb ↔ consistentFrame fb := by
  have hlen : 38 ≤ fb.length := h.1
  constructor
  · intro hsealed
    have hck := frameHalf_csumOff_frameSealed hlen
    have hfcs := frameFcs_frameSealed hlen
    rw [hsealed] at hck hfcs
    exact ⟨h, hck, hfcs⟩
  · rintro ⟨-, hck, hfcs⟩
    rw [frameSealed, frameSummed, ← hck, frameSetHalf_frameHalf (by simp only [csumOff]; omega), frameWithFcs, ← hfcs,
      frameBody_append_frameFcs]

end

end Sys2Proof.Machine
end

section
/-! The changing operation: its full result, and what the frame it leaves is worth (spec/40_df_mutator.md R80, R88 to
R92). -/

namespace Sys2Proof.Machine

/-! ## The full result -/

/-- A frame that the command changes: it passes both validations, its DF bit differs from the command, and its span fits
(R80, R83 to R87). -/
structure FrameChanges (d : BitVec 1) (bs : List Byte) : Prop where
  long : 38 ≤ bs.length
  ipv4 : frameHalf bs etypeOff = etypeIpv4
  df : dfBit (frameHalf bs fragOff) ≠ d
  fits : ipOff + frameSpan bs ≤ bs.length

section
variable {s : State} {bs : List Byte} {d : BitVec 1} {a : Nat}

/-- The validations and S3 on a held frame. -/
theorem State.FlagsRead.of_holds (h : s.holds bs) (hlen : 38 ≤ bs.length) (hipv4 : frameHalf bs etypeOff = etypeIpv4) :
    s.FlagsRead (bs.getD 20 0#8) (bs.getD 21 0#8) where
  long := h.1 ▸ hlen
  ipv4 := hipv4 ▸ State.holds_memRead_two h (by simp only [etypeOff]; omega)
  high := State.holds_lookup h (by omega)
  low := State.holds_lookup h (by omega)

/-- S3 and S5 on a held frame. -/
def State.operandsLoaded (s : State) (d : BitVec 1) (bs : List Byte) : State :=
  (s.flagsLoaded d (bs.getD 20 0#8) (bs.getD 21 0#8)).spanLoaded (bs.getD 14 0#8)

/-- The rewrite of a held frame whose span fits: each engine runs over the bytes that the steps before it left (R49). -/
theorem State.rewrite_of_holds {u : State} (h : u.holds bs) (hlen : 38 ≤ bs.length)
    (hspan : u.span.toNat = frameSpan bs) (hfits : ipOff + frameSpan bs ≤ bs.length) :
    u.rewrite = .next ((u.rewritten (frameHeader (frameZeroed bs u.new))
      (frameBody (frameWithChecksum bs u.new))).finish .ok) := by
  have hheader : (u.withFb u.zeroedFb).readSpan 14 u.span.toNat = .next (frameHeader (frameZeroed bs u.new)) := by
    rw [State.holds_readSpan (State.holds_zeroedFb h) (by rw [hspan, frameZeroed_length]; exact hfits), hspan,
      ← frameSpan_frameZeroed bs u.new]; rfl
  have hbody : (u.withFb (u.summedFb (csum16 (frameHeader (frameZeroed bs u.new))))).readSpan 0 (u.len - 4) =
      .next (frameBody (frameWithChecksum bs u.new)) := by
    rw [State.holds_readSpan (State.holds_summedFb h _) (by simp [h.1]), frameBody, frameWithChecksum_length, h.1]; rfl
  exact (State.rewrite_eq_next (by rw [h.1]; exact hlen)).mpr ⟨_, _, hheader, hbody, rfl⟩

/-- The state that a changing operation on a held frame ends in (R80). -/
theorem mdf_of_holds_of_frameChanges (h : s.holds bs) (hc : FrameChanges d bs) :
    mdf d s = .next (((s.operandsLoaded d bs).rewritten
      (frameHeader (frameZeroed bs (newFlags d (frameHalf bs fragOff))))
      (frameBody (frameWithChecksum bs (newFlags d (frameHalf bs fragOff))))).finish .ok) := by
  have hread := State.FlagsRead.of_holds h hc.long hc.ipv4
  have hspan : (s.operandsLoaded d bs).span.toNat = frameSpan bs := spanOf_frame bs
  have hload : (s.flagsLoaded d (bs.getD 20 0#8) (bs.getD 21 0#8)).loadSpan = .next (s.operandsLoaded d bs) :=
    State.holds_loadSpan (State.holds_withFlags h _ _) hc.long
  have hrewrite := State.rewrite_of_holds (u := s.operandsLoaded d bs) h hc.long hspan hc.fits
  have hfits : 14 + (s.operandsLoaded d bs).span.toNat ≤ s.len := by rw [hspan, h.1]; exact hc.fits
  exact mdf_eq_next.mpr (.inr ⟨hread.long, _, hread.ipv4, .inr ⟨rfl, _, hread.loadFlags d,
    .inr ⟨mt newFlags_eq_self_iff.mp hc.df, _, hload, .inr ⟨hfits, hrewrite⟩⟩⟩⟩)

end

/-- FB at the end of the rewrite of a held frame. -/
theorem State.holds_rewritten_finish {u : State} {bs : List Byte} (h : u.holds bs) (hlen : 38 ≤ bs.length)
    (hdr body : List Byte) (c : Status) :
    ((u.rewritten hdr body).finish c).holds
      (frameBody (frameSetHalf (frameZeroed bs u.new) csumOff (csum16 hdr)) ++ wordBytes (crc32 body)) :=
  State.holds_rewrittenFb h hlen _ _

/-- Behind the buffer the rewrite moves no byte. -/
theorem State.rewritten_finish_lookup_beyond {u : State} {a : Nat} (hlen : 38 ≤ u.len) (ha : u.len ≤ a)
    (hdr body : List Byte) (c : Status) : ((u.rewritten hdr body).finish c).fb.lookup a = u.fb.lookup a := by
  refine (State.rewrittenFb_lookup hlen _ _ (by omega) (by omega) (.inr ha)).trans ?_
  rw [if_neg (by omega), if_neg (by omega)]

/-- Settles O13: each clause is read off the state of `mdf_of_holds_of_frameChanges`; FB by what its stores leave. -/
theorem changingOperationResult : Obligations.ChangingOperationResult := by
  intro i s bs h hlen hipv4 hdf hfits
  have hc : FrameChanges i.commandBit bs := ⟨hlen, hipv4, hdf, hfits⟩
  have hheld : (s.operandsLoaded i.commandBit bs).holds bs := h
  have hbeyond (a : Nat) (ha : s.len ≤ a) :=
    State.rewritten_finish_lookup_beyond (u := s.operandsLoaded i.commandBit bs) (h.1 ▸ hlen) ha
  exact ⟨_, newFlags i.commandBit (frameHalf bs fragOff), _, _,
    (exec_eq_mdf i s).trans (mdf_of_holds_of_frameChanges h hc), newFlags_eq_xor hdf, rfl, rfl,
    State.holds_rewritten_finish hheld hlen _ _ _, fun a ha => hbeyond a ha _ _ _, rfl, rfl, rfl, spanOf_frame bs,
    rfl, rfl, rfl, rfl, rfl, rfl, rfl, rfl, rfl, rfl⟩

/-! ## The frame that a changing operation leaves -/

/-- The frame with DF forced, sealed anew. -/
def frameForced (d : BitVec 1) (bs : List Byte) : List Byte :=
  frameSealed (frameSetHalf bs fragOff (newFlags d (frameHalf bs fragOff)))

section
variable {d : BitVec 1} {bs : List Byte}

theorem FrameChanges.of_regular (h : regularFrame bs) (hdf : dfBit (frameHalf bs fragOff) ≠ d) : FrameChanges d bs := by
  obtain ⟨hlen, hipv4, -, hfits⟩ := h
  exact ⟨hlen, hipv4, hdf, Nat.le_trans hfits (Nat.sub_le _ _)⟩

theorem modifyDfBit_of_frameChanges (hc : FrameChanges d bs) : modifyDfBit bs d = (frameForced d bs, .ok) := by
  have hlen : ¬ bs.length < minLen := Nat.not_lt.mpr hc.long
  rw [modifyDfBit, if_neg hlen, if_neg (not_not.mpr hc.ipv4), if_neg (mt newFlags_eq_self_iff.mp hc.df),
    if_neg (Nat.not_lt.mpr hc.fits), frameWithChecksum_eq_frameSummed]; rfl

/-- A command that changes the held frame ends with OK and leaves the frame forced and sealed. -/
theorem exec_of_frameChanges {i : Instr} {s : State} (h : s.holds bs) (hc : FrameChanges i.commandBit bs) :
    ∃ t, exec i s = .next t ∧ t.holds (frameForced i.commandBit bs) ∧ t.status = 0#2 := by
  obtain ⟨t, ht, hholds, hstatus⟩ := operationIsPureFunctionOfFrame i s bs h
  rw [modifyDfBit_of_frameChanges hc] at hholds hstatus
  exact ⟨t, ht, hholds, hstatus⟩

/-- A field of a held frame, as FB holds it. -/
theorem State.holds_peekHalf {s : State} {a : Nat} (h : s.holds bs) (ha : a + 1 < bs.length) :
    s.peekHalf a = frameHalf bs a := by
  rw [State.peekHalf, State.peek, State.peek, State.holds_lookup h ha, State.holds_lookup h (Nat.lt_of_succ_lt ha)]; rfl

theorem frameForced_length (hlen : 38 ≤ bs.length) : (frameForced d bs).length = bs.length := by
  rw [frameForced, frameSealed_length (frameSetHalf_long hlen), frameSetHalf_length]

/-- The flags field of the forced frame is NEW. -/
theorem frameHalf_fragOff_frameForced (hlen : 38 ≤ bs.length) :
    frameHalf (frameForced d bs) fragOff = newFlags d (frameHalf bs fragOff) := by
  rw [frameForced, frameHalf_frameSealed (frameSetHalf_long hlen) (by decide),
    frameHalf_frameSetHalf _ (by simp only [fragOff]; omega)]

/-- The EtherType stays. -/
theorem frameHalf_etypeOff_frameForced (hlen : 38 ≤ bs.length) :
    frameHalf (frameForced d bs) etypeOff = frameHalf bs etypeOff := by
  rw [frameForced, frameHalf_frameSealed (frameSetHalf_long hlen) (by decide),
    frameHalf_frameSetHalf_of_disjoint _ (.inr (by decide))]

/-- So does the span. -/
theorem frameSpan_frameForced (hlen : 38 ≤ bs.length) : frameSpan (frameForced d bs) = frameSpan bs := by
  rw [frameForced, frameSpan_frameSealed (frameSetHalf_long hlen), frameSpan_frameSetHalf _ _ (by decide)]

/-- The checksum of the forced frame is that of the header with the new flags and the checksum field zero (R88). -/
theorem frameHalf_csumOff_frameForced (hlen : 38 ≤ bs.length) :
    frameHalf (frameForced d bs) csumOff =
      csum16 (frameHeader (frameZeroed bs (newFlags d (frameHalf bs fragOff)))) := by
  rw [frameForced, frameHalf_csumOff_frameSealed (frameSetHalf_long hlen)]; rfl

/-- A regular frame stays regular when its flags field is rewritten. -/
theorem regularFrame_frameSetHalf_fragOff (h : regularFrame bs) (v : Half) :
    regularFrame (frameSetHalf bs fragOff v) := by
  obtain ⟨hlen, hipv4, hihl, hfits⟩ := h
  have hspan : frameSpan (frameSetHalf bs fragOff v) = frameSpan bs := frameSpan_frameSetHalf _ _ (by decide)
  have hfits' : ipOff + frameSpan (frameSetHalf bs fragOff v) ≤ fcsOff (frameSetHalf bs fragOff v).length := by
    rw [hspan, frameSetHalf_length]; exact hfits
  refine ⟨by rw [frameSetHalf_length]; exact hlen, ?_, ?_, hfits'⟩
  · rw [frameHalf_frameSetHalf_of_disjoint _ (.inr (by decide)), hipv4]
  · simp only [frameSpan] at hspan; omega

/-! ## IHL = 0 -/

/-- An empty span has the checksum 0xFFFF. -/
theorem csum16_frameHeader_of_frameSpan_eq_zero (h : frameSpan bs = 0) : csum16 (frameHeader bs) = 0xFFFF#16 := by
  rw [frameHeader, h, List.take_zero]; decide

end

/-- Settles O18: the checksum of the forced frame is that of an empty span. -/
theorem emptySpanWritesAllOnes : Obligations.EmptySpanWritesAllOnes := by
  intro i s bs h hlen hipv4 hdf hihl
  have hspan : frameSpan bs = 0 := by rw [frameSpan, hihl]
  have hlong : 38 ≤ bs.length := hlen
  obtain ⟨t, ht, hholds, hstatus⟩ := exec_of_frameChanges h ⟨hlong, hipv4, hdf, by rw [hspan]; simp only [ipOff]; omega⟩
  have hlength := frameForced_length (d := i.commandBit) hlong
  have hfield : frameHalf (frameForced i.commandBit bs) csumOff = 0xFF#8 ++ 0xFF#8 := by
    rw [frameHalf_csumOff_frameForced hlong, csum16_frameHeader_of_frameSpan_eq_zero
      (by rw [frameSpan_frameZeroed, hspan])]; rfl
  have hhigh := congrArg (BitVec.extractLsb' 8 8) hfield
  have hlow := congrArg (BitVec.extractLsb' 0 8) hfield
  simp only [frameHalf, BitVec.extractLsb'_append_eq_left, BitVec.extractLsb'_append_eq_right] at hhigh hlow
  refine ⟨t, ht, hstatus, ?_, ?_⟩
  · rw [State.holds_lookup hholds (by omega)]; exact congrArg some hhigh
  · rw [State.holds_lookup hholds (by omega)]; exact congrArg some hlow

/-! ## Regular frames come out right -/

/-- The last four bytes of a held frame whose FCS is `c` read as `c`, the most significant byte first (R115). -/
theorem State.holds_memRead_fcs {t : State} {bs : List Byte} {c : Word} (h : t.holds bs) (hlen : 4 ≤ bs.length)
    (hfcs : frameFcs bs = wordBytes c) : t.memRead (fcsOff t.len) 4 = .next c := by
  have hend : fcsOff bs.length + 4 = bs.length := Nat.sub_add_cancel hlen
  rw [h.1]
  refine State.memRead_of_bytes (v := c) (by rw [h.1, hend]) fun k hk => ?_
  have hbyte : bs[fcsOff bs.length + k]? = (wordBytes c)[k]? := by rw [← hfcs, frameFcs, List.getElem?_drop]
  rw [h.2 _ (by omega), hbyte]
  interval_cases k <;> rfl

/-- Settles O15: the forced frame is sealed, so its header sums to zero and its FCS is the CRC-32 of its body. -/
theorem regularFrameIsRepaired : Obligations.RegularFrameIsRepaired := by
  intro i s bs h hreg hdf
  have hlen : 38 ≤ bs.length := hreg.1
  obtain ⟨t, ht, hholds, hstatus⟩ := exec_of_frameChanges h (.of_regular hreg hdf)
  have hflags := frameHalf_fragOff_frameForced (d := i.commandBit) hlen
  refine ⟨t, frameForced i.commandBit bs, ht, hholds, hstatus, ?_, fun k hk => ?_,
    csum16_frameHeader_frameSealed (regularFrame_frameSetHalf_fragOff hreg _), frameSpan_frameForced hlen,
    State.holds_memRead_fcs hholds ?_ (frameFcs_frameSealed (frameSetHalf_long hlen))⟩
  · rw [hflags, dfBit_newFlags]
  · rw [hflags, newFlags_getLsbD, if_neg hk]
  · rw [frameForced_length hlen]; omega

/-! ## The old checksum and the old FCS -/

/-- Frames alike in every byte but the checksum and the FCS are blanked alike. -/
theorem frameBlank_congr {bs cs : List Byte} (hlength : bs.length = cs.length)
    (hbytes : ∀ a, a < fcsOff bs.length → a ≠ csumOff → a ≠ csumOff + 1 → bs[a]? = cs[a]?) :
    frameBlank bs = frameBlank cs := by
  refine List.ext_getElem? fun a => ?_
  simp only [frameBlank, frameBody, frameSetHalf_length, ← hlength]
  by_cases ha : a < fcsOff bs.length
  · rw [List.getElem?_take_of_lt ha, List.getElem?_take_of_lt ha]
    simp only [frameSetHalf, List.getElem?_set, List.length_set, hlength]
    grind
  · rw [List.getElem?_take_eq_none (by omega), List.getElem?_take_eq_none (by omega)]

/-- Settles O17: frames that are blanked alike are changed alike, for their flags fields and their spans agree. -/
theorem oldChecksumAndFcsHaveNoInfluence : Obligations.OldChecksumAndFcsHaveNoInfluence := by
  intro i s s' bs bs' h h' hlength hbytes hlen hipv4 hdf hfits
  rw [minLen_eq] at hlen
  have hlen' : 38 ≤ bs'.length := hlength ▸ hlen
  have hblank := frameBlank_congr hlength hbytes
  have hfield {a : Nat} (ha : a + 1 < csumOff) : frameHalf bs a = frameHalf bs' a := by
    rw [← frameHalf_frameBlank hlen ha, hblank, frameHalf_frameBlank hlen' ha]
  have hspan : frameSpan bs = frameSpan bs' := by
    rw [← frameSpan_frameBlank hlen, hblank, frameSpan_frameBlank hlen']
  have hflags : frameHalf bs fragOff = frameHalf bs' fragOff := hfield (by decide)
  have hwithin : ipOff + frameSpan bs ≤ bs.length := Nat.le_trans hfits (Nat.sub_le _ _)
  obtain ⟨t, ht, hholds, -⟩ := exec_of_frameChanges h ⟨hlen, hipv4, hdf, hwithin⟩
  have hetype : frameHalf bs etypeOff = frameHalf bs' etypeOff := hfield (by decide)
  obtain ⟨t', ht', hholds', -⟩ := exec_of_frameChanges h'
    ⟨hlen', hetype ▸ hipv4, hflags ▸ hdf, hlength ▸ hspan ▸ hwithin⟩
  have hsame : frameForced i.commandBit bs = frameForced i.commandBit bs' := by
    refine frameSealed_congr (frameSetHalf_long hlen) ?_ ?_ ?_
    · rw [frameSpan_frameSetHalf _ _ (by decide), frameSetHalf_length]; exact hfits
    · rw [frameSetHalf_length, frameSetHalf_length, hlength]
    · rw [frameBlank_frameSetHalf _ _ (by decide), frameBlank_frameSetHalf _ _ (by decide), hblank, hflags]
  exact ⟨t, t', _, ht, ht', hholds, hsame ▸ hholds'⟩

/-! ## The checksum against DF -/

/-- DF weighs 0x4000 in the flags field. -/
theorem newFlags_one_toNat {f : Half} (h : dfBit f = 0#1) : (newFlags 1#1 f).toNat = f.toNat + 0x4000 := by
  have hclear : f &&& dfMask = 0#16 := by
    have hbit : f.getLsbD 14 = false := dfBit_eq_iff.mp h
    have hmask : dfMask = BitVec.twoPow 16 14 := by decide
    rw [hmask, BitVec.and_twoPow, hbit]; rfl
  have hnew : newFlags 1#1 f = f + dfMask := (BitVec.add_eq_or_of_and_eq_zero f dfMask hclear).symm
  rw [hnew, BitVec.toNat_add_of_and_eq_zero hclear]; rfl

/-- Forcing DF moves the checksum of a consistent frame by the opposite of what it moves the flags field (R106
law 6). -/
theorem frameForced_checksum_mod {d : BitVec 1} {bs : List Byte} (h : consistentFrame bs) :
    ((frameHalf (frameForced d bs) csumOff).toNat + (newFlags d (frameHalf bs fragOff)).toNat) % 65535 =
      ((frameHalf bs csumOff).toNat + (frameHalf bs fragOff).toNat) % 65535 := by
  obtain ⟨⟨hlen, -, hihl, hfits⟩, hck, -⟩ := h
  rw [minLen_eq] at hlen
  set zeroed := frameSetHalf bs csumOff 0x0000#16 with hzeroed
  have hspan : frameSpan zeroed = frameSpan bs := frameSpan_frameSetHalf _ _ (by decide)
  have hspan20 : 20 ≤ frameSpan bs := by rw [frameSpan]; omega
  have hspan60 := frameSpan_le bs
  have hlength : (frameHeader zeroed).length = frameSpan bs := by
    rw [frameHeader_length, hspan]
    rw [hspan, hzeroed, frameSetHalf_length]
    exact Nat.le_trans hfits (Nat.sub_le _ _)
  have hflags : frameHalf (frameHeader zeroed) (fragOff - ipOff) = frameHalf bs fragOff := by
    rw [frameHalf_frameHeader (by decide) (by rw [hspan]; simp only [fragOff, ipOff]; omega), hzeroed,
      frameHalf_frameSetHalf_of_disjoint _ (.inr (by decide))]
  have hheader (v : Half) : frameHeader (frameZeroed bs v) = frameSetHalf (frameHeader zeroed) (fragOff - ipOff) v := by
    rw [frameZeroed, frameSetHalf_comm _ _ (by decide), frameHeader_frameSetHalf _ (by decide)]
  rw [frameHalf_csumOff_frameForced hlen, hheader, hck, ← hflags]
  exact csum16_frameSetHalf_mod _ (by omega) rfl (by simp only [fragOff, ipOff]; omega)

/-- A flags field that rises by the weight of DF lowers the checksum by as much. -/
theorem checksum_shift {ck ck' flags : Nat} (h : (ck' + (flags + 0x4000)) % 65535 = (ck + flags) % 65535) :
    (ck' + 0x4000) % 65535 = ck % 65535 := by
  rw [Nat.add_comm flags, ← Nat.add_assoc] at h
  exact Nat.ModEq.add_right_cancel' flags h

/-- Settles O19: the flags field moves by 0x4000, up for MDF.SET and down for MDF.CLR, the checksum the other way. -/
theorem checksumMovesByDfWeight : Obligations.ChecksumMovesByDfWeight := by
  intro s bs h hcons
  have hreg : regularFrame bs := hcons.1
  have hlen : 38 ≤ bs.length := hreg.1
  have hrun (i : Instr) {d : BitVec 1} (hd : i.commandBit = d) (hdf : dfBit (frameHalf bs fragOff) ≠ d) :
      ∃ t, exec i s = .next t ∧ t.peekHalf csumOff = frameHalf (frameForced d bs) csumOff := by
    subst hd
    obtain ⟨t, ht, hholds, -⟩ := exec_of_frameChanges h (.of_regular hreg hdf)
    exact ⟨t, ht, State.holds_peekHalf hholds (by rw [frameForced_length hlen]; simp only [csumOff]; omega)⟩
  refine ⟨fun hdf => ?_, fun hdf => ?_⟩
  · obtain ⟨t, ht, hpeek⟩ := hrun .mdfSet (d := 1#1) rfl (by rw [hdf]; decide)
    have hmoved := frameForced_checksum_mod (d := 1#1) hcons
    rw [newFlags_one_toNat hdf, ← hpeek] at hmoved
    exact ⟨t, ht, checksum_shift hmoved⟩
  · obtain ⟨t, ht, hpeek⟩ := hrun .mdfClr (d := 0#1) rfl (by rw [hdf]; decide)
    have hmoved := frameForced_checksum_mod (d := 0#1) hcons
    have hback : newFlags 1#1 (newFlags 0#1 (frameHalf bs fragOff)) = frameHalf bs fragOff := by
      rw [newFlags_newFlags, newFlags_eq_self_iff.mpr hdf]
    have hweight := newFlags_one_toNat (dfBit_newFlags 0#1 (frameHalf bs fragOff))
    rw [hback] at hweight
    rw [hweight, ← hpeek] at hmoved
    exact ⟨t, ht, (checksum_shift hmoved.symm).symm⟩

/-! ## There and back -/

/-- Forced twice, the frame is as if the second command alone had set the field. -/
theorem frameForced_frameForced {d e : BitVec 1} {bs : List Byte} (h : regularFrame bs)
    (he : dfBit (frameHalf bs fragOff) = e) : frameForced e (frameForced d bs) = frameSealed bs := by
  obtain ⟨hlen, -, -, hfits⟩ := h
  rw [minLen_eq] at hlen
  have hflags : newFlags e (frameHalf (frameForced d bs) fragOff) = frameHalf bs fragOff := by
    rw [frameHalf_fragOff_frameForced hlen, newFlags_newFlags, newFlags_eq_self_iff.mpr he]
  have hlength := frameForced_length (d := d) hlen
  rw [frameForced, hflags]
  refine (frameSealed_congr hlen hfits (by rw [frameSetHalf_length, hlength]) ?_).symm
  rw [frameBlank_frameSetHalf _ _ (by decide), frameForced, frameBlank_frameSealed (frameSetHalf_long hlen),
    frameBlank_frameSetHalf _ _ (by decide), frameSetHalf_frameSetHalf, ← frameBlank_frameSetHalf _ _ (by decide),
    frameSetHalf_frameHalf (by simp only [fragOff]; omega)]

/-- The two commands have the two command bits (R61). -/
theorem eq_commandBit_of_ne {i j : Instr} {d : BitVec 1} (hij : i ≠ j) (hd : d ≠ i.commandBit) : d = j.commandBit := by
  have hbits : ∀ x y z : BitVec 1, y ≠ z → x ≠ y → x = z := by decide
  refine hbits d i.commandBit j.commandBit (fun hbit => hij ?_) hd
  rw [← decodeCommand_commandBit i, hbit, decodeCommand_commandBit]

/-- Settles O20: there and back the frame is sealed anew with its own flags, and the frames that are sealed already are
the consistent ones. -/
theorem roundTripRestoresConsistentFrames : Obligations.RoundTripRestoresConsistentFrames := by
  intro i j s bs hij h hreg hdf
  have hlen : 38 ≤ bs.length := hreg.1
  have hold : dfBit (frameHalf bs fragOff) = j.commandBit := eq_commandBit_of_ne hij hdf
  have hc : FrameChanges i.commandBit bs := .of_regular hreg hdf
  have hback : FrameChanges j.commandBit (frameForced i.commandBit bs) :=
    { long := by rw [frameForced_length hlen]; exact hlen
      ipv4 := by rw [frameHalf_etypeOff_frameForced hlen]; exact hc.ipv4
      df := by rw [frameHalf_fragOff_frameForced hlen, dfBit_newFlags, ← hold]; exact hdf.symm
      fits := by rw [frameSpan_frameForced hlen, frameForced_length hlen]; exact hc.fits }
  obtain ⟨t, ht, hholds, -⟩ := exec_of_frameChanges h hc
  obtain ⟨u, hu, hholds', hstatus⟩ := exec_of_frameChanges hholds hback
  rw [frameForced_frameForced hreg hold] at hholds'
  exact ⟨t, u, _, ht, hu, hholds', hstatus, frameHalf_frameSealed hlen (by decide), frameSealed_eq_self_iff hreg⟩

/-! ## The same command again -/

/-- MDF a second time: where the first run stored nothing its inputs stand, and where it rewrote the frame DF is as
asked now, so the second run ends at the unchanged test (R91 item 5). -/
theorem mdf_again {d : BitVec 1} {s t : State} (h : mdf d s = .next t) : AgreesWith t (mdf d t) := by
  have hexit (hin : s.SameInputs t) : AgreesWith t (mdf d t) := hin.mdf h
  cases mdf_next_end h with
  | tooSmall | foreign | unchanged | spanLeaves => exact hexit ⟨rfl, rfl⟩
  | @rewritten hi lo b hdr body hread =>
    set u := (s.flagsLoaded d hi lo).spanLoaded b
    have hlen : 38 ≤ u.len := hread.long
    obtain ⟨-, x, y, h12, h13, hipv4⟩ := State.readEtherType_eq_next.mp hread.ipv4
    have hbyte {a : Nat} (ha : a < 24) : ((u.rewritten hdr body).finish .ok).fb.lookup a =
        if a = 20 then some (u.new.extractLsb' 8 8) else if a = 21 then some (u.new.extractLsb' 0 8)
        else u.fb.lookup a :=
      State.rewrittenFb_lookup hlen _ _ (by omega) (by omega) (.inl (by omega))
    have hreread : ((u.rewritten hdr body).finish .ok).FlagsRead (u.new.extractLsb' 8 8) (u.new.extractLsb' 0 8) :=
      { long := hlen
        ipv4 := State.readEtherType_eq_next.mpr ⟨Nat.lt_of_lt_of_le (by decide) hlen, x, y,
          (hbyte (by decide)).trans h12, (hbyte (by decide)).trans h13, hipv4⟩
        high := hbyte (by decide)
        low := hbyte (by decide) }
    have hforced : newFlags d u.new = u.new := newFlags_eq_self_iff.mpr (dfBit_newFlags d (hi ++ lo))
    exact ⟨_, hreread.mdf_unchanged (by rw [half_of_bytes]; exact hforced), rfl, rfl, rfl⟩

/-- Settles O21: `mdf_again`, and SET_DF stays by the frame of an operation. -/
theorem secondRunChangesNothing : Obligations.SecondRunChangesNothing := by
  intro i s t h
  rw [exec_eq_mdf] at h
  obtain ⟨u, hu, hfb, hlen, hstatus⟩ := mdf_again h
  rw [← exec_eq_mdf] at hu
  obtain ⟨-, hsetDf, -⟩ := operationFrame i t u hu
  exact ⟨u, hu, hfb, hstatus, hlen, hsetDf⟩

end Sys2Proof.Machine
end

section
/-! The laws of CSUM16 (spec/41_ipv4_checksum.md R102 to R106): the folds, the bound on ACC, and what the result makes of
the words of a sequence: their padding, their order, a changed word, and the order of their bytes. -/

namespace Sys2Proof.Machine

/-! ## The folds and the accumulator -/

/-- The first fold leaves at most one carry (R104). -/
theorem csumFold_toNat_le (acc : Word) : (csumFold acc).toNat ≤ 0x1FFFE := by
  have := acc.isLt
  rw [csumFold_toNat]
  omega

/-- Two folds leave 16 bits (R104). -/
theorem csumFold_csumFold_toNat_le (acc : Word) : (csumFold (csumFold acc)).toNat ≤ 0xFFFF := by
  rw [csumFold_csumFold_toNat]
  exact endAround_le _

/-- A value of 16 bits has no carry to fold (R104). -/
theorem csumFold_eq_self {acc : Word} (h : acc.toNat ≤ 0xFFFF) : csumFold acc = acc := by
  refine BitVec.eq_of_toNat_eq ?_
  rw [csumFold_toNat]
  omega

/-- A fold and ACC + (ACC >> 16) have the same low half (R104). -/
theorem csumFold_low_half (acc : Word) :
    (csumFold acc).extractLsb' 0 16 = (acc + acc >>> 16).extractLsb' 0 16 := by
  refine BitVec.eq_of_toNat_eq ?_
  simp only [BitVec.extractLsb'_toNat, csumFold_toNat, BitVec.toNat_add, BitVec.toNat_ushiftRight,
    Nat.shiftRight_eq_div_pow]
  omega

/-- Settles O43: the bounds after one fold and after two, and what 16 bits make of a third fold. -/
theorem twoFoldsSuffice : Obligations.TwoFoldsSuffice := fun acc =>
  ⟨csumFold_toNat_le acc, csumFold_csumFold_toNat_le acc, csumFold_eq_self (csumFold_csumFold_toNat_le acc),
    csumFold_low_half (csumFold acc)⟩

/-- Up to 65,537 words the sum fits ACC, since 65,537 × 0xFFFF = 2^32 - 1 (R103). -/
theorem csumWords_toNat_of_length_le {s : List Byte} (hlen : (s.length + 1) / 2 ≤ 65537) :
    (csumWords 0#32 s).toNat = wordSum s := by
  have hle := wordSum_le s
  rw [csumWords_toNat, BitVec.toNat_ofNat]
  omega

/-- Settles O44: `csumWords_toNat`, and the two bounds from `wordSum_le`. -/
theorem accumulatorHoldsWordSum : Obligations.AccumulatorHoldsWordSum := by
  refine ⟨fun s => ?_, fun s => csumWords_toNat_of_length_le, fun s hlen => ?_⟩
  · rw [csumWords_toNat, BitVec.toNat_ofNat, Nat.zero_mod, Nat.zero_add]
  · have hle := wordSum_le s
    rw [csumWords_toNat_of_length_le (by omega)]
    omega

/-! ## The words of a sequence put together -/

/-- A prefix of whole words and the rest are summed apart (R100). -/
theorem wordSum_append {s : List Byte} (heven : s.length % 2 = 0) (t : List Byte) :
    wordSum (s ++ t) = wordSum s + wordSum t := by
  induction s using wordSum.induct with
  | case1 => simp [wordSum]
  | case2 b => simp at heven
  | case3 hi lo rest ih =>
    have hrest := ih (by simp only [List.length_cons] at heven; omega)
    simp only [List.cons_append, wordSum, hrest]
    omega

/-- A sequence given as whole words sums to the sum of their values. -/
theorem wordSum_flatMap {α : Type} (hi lo : α → Byte) (ws : List α) :
    wordSum (ws.flatMap fun w => [hi w, lo w]) = (ws.map fun w => (hi w).toNat * 256 + (lo w).toNat).sum := by
  induction ws with
  | nil => rfl
  | cons w ws ih =>
    simp only [List.flatMap_cons, List.cons_append, List.nil_append, wordSum, ih, List.map_cons, List.sum_cons]

theorem length_flatMap_word {α : Type} (hi lo : α → Byte) (ws : List α) :
    (ws.flatMap fun w => [hi w, lo w]).length = 2 * ws.length := by
  simp [List.length_flatMap, Nat.mul_comm]

/-- CSUM16 looks at the sum of the words only, even where ACC wraps (R100). -/
theorem csum16_congr {s t : List Byte} (h : wordSum s = wordSum t) : csum16 s = csum16 t := by
  have hacc : csumWords 0#32 s = csumWords 0#32 t :=
    BitVec.eq_of_toNat_eq (by rw [csumWords_toNat, csumWords_toNat, h])
  rw [csum16, csum16, csumAcc, csumAcc, hacc]

/-- Settles O45: both sequences add the word byte × 256 to the words before it; a span is four times a nibble. -/
theorem oddTrailingByteIsHighByte : Obligations.OddTrailingByteIsHighByte := by
  refine ⟨fun s b heven => csum16_congr ?_, by decide, by decide, fun fb => ?_⟩
  · simp only [wordSum_append heven, wordSum, BitVec.toNat_ofNat, Nat.zero_mod, Nat.add_zero]
  · rw [frameSpan]; omega

/-- Settles O50: the sum of the words is a sum over a permuted list. -/
theorem csumWordOrderIndependent : Obligations.CsumWordOrderIndependent := by
  intro ws ws' hperm
  refine csum16_congr ?_
  rw [wordSum_flatMap, wordSum_flatMap]
  exact (hperm.map _).sum_eq

/-- Settles O51: with either word, the words and the checksum together are zero modulo 0xFFFF. -/
theorem csumWordChange : Obligations.CsumWordChange := by
  intro pre post a b c d heven hlen
  have hsum (x y : Byte) :
      ((csum16 (pre ++ x :: y :: post)).toNat + (wordSum pre + ((x ++ y : Half).toNat + wordSum post))) % 65535 = 0 := by
    have hzero := csum16_add_wordSum (s := pre ++ x :: y :: post)
      (by simp only [List.length_append, List.length_cons]; omega)
    rwa [wordSum_append heven, wordSum, ← toNat_word] at hzero
  have hab := hsum a b
  have hcd := hsum c d
  omega

/-! ## The result in one's-complement arithmetic -/

/-- Settles O46: `csum16_toNat`. -/
theorem csumIsOnesComplementSum : Obligations.CsumIsOnesComplementSum := fun _ => csum16_toNat

/-- Only the sum 0 has the end-around sum 0, so only it has the checksum 0xFFFF (R106 law 2). -/
theorem csum16_eq_allOnes_iff {s : List Byte} (hlen : s.length ≤ 131074) : csum16 s = 0xFFFF#16 ↔ wordSum s = 0 := by
  rw [← BitVec.toNat_inj, csum16_toNat hlen, BitVec.toNat_ofNat, endAround]
  split <;> omega

/-- The checksum is 0x0000 exactly for a non-zero multiple of 0xFFFF (R106 law 2). -/
theorem csum16_eq_zero_iff {s : List Byte} (hlen : s.length ≤ 131074) :
    csum16 s = 0x0000#16 ↔ wordSum s ≠ 0 ∧ wordSum s % 65535 = 0 := by
  refine ⟨fun hck => ?_, fun ⟨hsum, hmod⟩ => csum16_eq_zero hlen hsum hmod⟩
  have hmod := csum16_add_wordSum hlen
  rw [hck, BitVec.toNat_ofNat, Nat.zero_mod, Nat.zero_add] at hmod
  have hones := csum16_eq_allOnes_iff hlen
  rw [hck] at hones
  exact ⟨fun hsum => absurd (hones.mpr hsum) (by decide), hmod⟩

/-- Settles O47: the two extremes of the checksum, and only zero bytes sum to zero. -/
theorem csumExtremes : Obligations.CsumExtremes := fun _ hlen =>
  ⟨(csum16_eq_allOnes_iff hlen).trans wordSum_eq_zero_iff, csum16_eq_zero_iff hlen⟩

/-- Settles O48: the field at byte 10 is zero, and a byte that is not zero makes the sum of the words non-zero. -/
theorem storedChecksumVerifies : Obligations.StoredChecksumVerifies := by
  rintro s hlen - hlong h10 h11 ⟨b, hb, hne⟩
  have hfield : frameHalf s 10 = 0x0000#16 := by
    rw [frameHalf, List.getD_eq_getElem?_getD, List.getD_eq_getElem?_getD, h10, h11]; rfl
  have hsum : wordSum s ≠ 0 := fun hzero => hne (wordSum_eq_zero_iff.mp hzero b hb)
  exact csum16_frameSetHalf_csum16 hlen rfl hlong hfield hsum

/-! ## Byte order -/

/-- A checksum is known by its residue modulo 0xFFFF, and by whether it is the 0xFFFF of a zero sum (R106 laws 1
and 2). -/
theorem csum16_eq_of_mod {s : List Byte} {v : Half} (hlen : s.length ≤ 131074)
    (hmod : (v.toNat + wordSum s) % 65535 = 0) (hones : v.toNat = 65535 ↔ wordSum s = 0) : csum16 s = v := by
  have hv := v.isLt
  refine BitVec.eq_of_toNat_eq ?_
  rw [csum16_toNat hlen, endAround]
  split <;> omega

/-- A 16-bit value with its two bytes exchanged, as a number. -/
theorem toNat_swapBytes (v : Half) :
    (v.extractLsb' 0 8 ++ v.extractLsb' 8 8 : Half).toNat = v.toNat % 256 * 256 + v.toNat / 256 := by
  have hv := v.isLt
  rw [toNat_word]
  simp only [BitVec.extractLsb'_toNat, Nat.shiftRight_eq_div_pow]
  omega

/-- To exchange the bytes of every word is to multiply the sum by 256 modulo 0xFFFF (R106 law 4). -/
theorem wordSum_swapBytes_mod (ws : List (Byte × Byte)) :
    wordSum (ws.flatMap fun w => [w.2, w.1]) % 65535 = 256 * wordSum (ws.flatMap fun w => [w.1, w.2]) % 65535 := by
  induction ws with
  | nil => rfl
  | cons w ws ih =>
    simp only [List.flatMap_cons, List.cons_append, List.nil_append, wordSum]
    omega

/-- The same bytes are zero in both byte orders. -/
theorem wordSum_swapBytes_eq_zero_iff (ws : List (Byte × Byte)) :
    wordSum (ws.flatMap fun w => [w.2, w.1]) = 0 ↔ wordSum (ws.flatMap fun w => [w.1, w.2]) = 0 := by
  rw [wordSum_eq_zero_iff, wordSum_eq_zero_iff, List.forall_mem_flatMap, List.forall_mem_flatMap]
  exact forall₂_congr fun w _ => by simp [and_comm]

/-- Settles O49: the exchanged checksum has the residue of the exchanged words, and is 0xFFFF when the checksum is. -/
theorem csumByteOrderIndependent : Obligations.CsumByteOrderIndependent := by
  intro ws hlen
  have hlength (hi lo : Byte × Byte → Byte) : (ws.flatMap fun w => [hi w, lo w]).length ≤ 131074 := by
    rw [length_flatMap_word]; omega
  have hswapMod := wordSum_swapBytes_mod ws
  have hswapZero := wordSum_swapBytes_eq_zero_iff ws
  have hmod := csum16_add_wordSum (hlength Prod.fst Prod.snd)
  have hones := csum16_eq_allOnes_iff (hlength Prod.fst Prod.snd)
  rw [← BitVec.toNat_inj, BitVec.toNat_ofNat] at hones
  have hck := (csum16 (ws.flatMap fun w => [w.1, w.2])).isLt
  refine csum16_eq_of_mod (hlength Prod.snd Prod.fst) ?_ ?_
  · rw [toNat_swapBytes]; omega
  · rw [toNat_swapBytes, hswapZero, ← hones]; omega

end Sys2Proof.Machine
end

section
/-! The stored FCS: what the rewrite leaves in the last four bytes (spec/42_crc32_fcs.md R114 to R116). -/

namespace Sys2Proof.Machine

/-- After the rewrite the bytes before the FCS are those the CRC was run over, and the FCS reads as their CRC-32: S11
stores the four bytes of C, the most significant first, and no byte before them (R115, R116). -/
theorem State.rewrite_stores_fcs {s t : State} (hlen : 38 ≤ s.len) (h : s.rewrite = .next t) :
    ∃ body, t.readSpan 0 (t.len - 4) = .next body ∧ t.memRead (t.len - 4) 4 = .next (crc32 body) := by
  obtain ⟨hdr, body, -, hbody, rfl⟩ := (State.rewrite_eq_next hlen).mp h
  set ck := csum16 hdr
  set t := (((s.withFb (s.rewrittenFb ck (crc32 body))).withCsum (csumAcc hdr) ck).withCrcreg
    (crcRun crcInit body)).finish .ok
  have htlen : t.len = s.len := rfl
  have hstored (a : Nat) : t.fb.lookup a = if s.len - 4 ≤ a ∧ a < s.len - 4 + 4 then
      (wordBytes (crc32 body))[a - (s.len - 4)]? else (s.summedFb ck).lookup a :=
    Memory.lookup_storeAll (s.summedFb ck) (s.len - 4) (wordBytes (crc32 body)) a
  obtain ⟨hcount, hbytes⟩ := State.readSpan_eq_next.mp hbody
  refine ⟨body, State.readSpan_eq_next.mpr ⟨hcount, fun k hk => ?_⟩,
    State.memRead_of_bytes (n := 4) (by omega) fun k hk => ?_⟩
  · obtain ⟨hin, hbyte⟩ := hbytes k hk
    refine ⟨hin, ?_⟩
    rw [hstored, if_neg (by omega)]
    exact hbyte
  · rw [hstored, htlen, if_pos (by omega), Nat.add_sub_cancel_left]
    interval_cases k <;> rfl

/-- A change is needed exactly when forcing DF moves the flags field (R85). -/
theorem State.needsChange_iff {s : State} {i : Instr} {hi lo : Byte} (hhi : s.fb.lookup 20 = some hi)
    (hlo : s.fb.lookup 21 = some lo) : s.needsChange i ↔ newFlags i.commandBit (hi ++ lo) ≠ hi ++ lo := by
  have hfield : s.peekHalf fragOff = hi ++ lo := by simp [State.peekHalf, State.peek, fragOff, hhi, hlo]
  rw [State.needsChange, hfield, Ne, Ne, newFlags_eq_self_iff]

/-- A changing operation ends with the rewrite, of a buffer long enough: the other ends have a failure code, or are those
of a frame that needs no change. -/
theorem exec_ok_rewrites {i : Instr} {s t : State} (h : exec i s = .next t) (hok : t.status = Status.ok.code)
    (hchange : s.needsChange i) : ∃ u : State, 38 ≤ u.len ∧ u.rewrite = .next t := by
  rw [exec_eq_mdf] at h
  rcases mdf_next_cases h with
    ⟨-, rfl⟩ | ⟨hlen, _, -, ⟨-, rfl⟩ | ⟨-, s3, hflags, ⟨hsame, rfl⟩ | ⟨-, s5, hspan, ⟨-, rfl⟩ | ⟨-, hrewrite⟩⟩⟩⟩
  · simp [Status.code] at hok
  · simp [Status.code] at hok
  · obtain ⟨-, hi, lo, hhi, hlo, rfl⟩ := State.loadFlags_eq_next.mp hflags
    exact absurd hsame ((State.needsChange_iff hhi hlo).mp hchange)
  · simp [Status.code] at hok
  · obtain ⟨-, _, _, -, -, rfl⟩ := State.loadFlags_eq_next.mp hflags
    obtain ⟨-, _, -, rfl⟩ := State.loadSpan_eq_next.mp hspan
    exact ⟨_, by exact hlen, hrewrite⟩

/-- Settles O16: a changing operation ends with the rewrite, and the rewrite stores the FCS of what it leaves. -/
theorem storedFcsMatches : Obligations.StoredFcsMatches := by
  intro i s t h hok hchange
  obtain ⟨u, hlen, hrewrite⟩ := exec_ok_rewrites h hok hchange
  exact State.rewrite_stores_fcs hlen hrewrite

end Sys2Proof.Machine
end

section
/-! The laws of CRC-32 (spec/42_crc32_fcs.md R110 to R113, R118). All of them come from two facts about one bit step:
it is linear over XOR, and it is injective, for the bit it shifts out is the top bit of its result. -/

namespace Sys2Proof.Machine

/-! ## The bit step -/

/-- One bit step, bit by bit: the register moves down one place, and the bit that leaves it feeds back through the
polynomial (R110). -/
theorem crcBit_getLsbD (r : Word) (k : Nat) :
    (crcBit r).getLsbD k = (r.getLsbD (k + 1) ^^ (r.getLsbD 0 && crcPoly.getLsbD k)) := by
  unfold crcBit
  cases r.getLsbD 0 <;> simp [Nat.add_comm 1]

theorem crcBit_xor (r q : Word) : crcBit (r ^^^ q) = crcBit r ^^^ crcBit q := by
  refine BitVec.eq_of_getLsbD_eq fun k _ => ?_
  simp only [BitVec.getLsbD_xor, crcBit_getLsbD, Bool.and_xor_distrib_right, Bool.xor_assoc, Bool.xor_left_comm]

/-- The bit that leaves the register is the top bit of the result, for bit 31 of the polynomial is set. -/
theorem crcBit_top (r : Word) : (crcBit r).getLsbD 31 = r.getLsbD 0 := by
  have htop : crcPoly.getLsbD 31 = true := by decide
  rw [crcBit_getLsbD, BitVec.getLsbD_of_ge r 32 (by omega), htop, Bool.false_xor, Bool.and_true]

/-- No two register values have the same successor. -/
theorem crcBit_injective : Function.Injective crcBit := by
  intro r q h
  have hlow : r.getLsbD 0 = q.getLsbD 0 := by rw [← crcBit_top, h, crcBit_top]
  refine BitVec.eq_of_getLsbD_eq fun k _ => ?_
  cases k with
  | zero => exact hlow
  | succ k =>
    have hbit : (crcBit r).getLsbD k = (crcBit q).getLsbD k := by rw [h]
    rw [crcBit_getLsbD, crcBit_getLsbD, hlow] at hbit
    exact Bool.xor_left_inj.mp hbit

/-- A step that shifts a zero out is the shift alone. -/
theorem crcBit_of_low_zero {r : Word} (h : r.getLsbD 0 = false) : crcBit r = r >>> 1 := by
  rw [crcBit, h]; rfl

/-! ## Bit steps, bytes and sequences -/

theorem crcBits_xor (n : Nat) (r q : Word) : crcBits n (r ^^^ q) = crcBits n r ^^^ crcBits n q := by
  induction n generalizing r q with
  | zero => rfl
  | succ n ih => rw [crcBits, crcBit_xor, ih]; rfl

theorem crcBits_injective (n : Nat) : Function.Injective (crcBits n) := by
  induction n with
  | zero => exact fun _ _ h => h
  | succ n ih => exact ih.comp crcBit_injective

/-- While only zeros are shifted out, the steps are a shift. -/
theorem crcBits_of_low_zeros {n : Nat} {r : Word} (h : ∀ k, k < n → r.getLsbD k = false) :
    crcBits n r = r >>> n := by
  induction n generalizing r with
  | zero => simp [crcBits]
  | succ n ih =>
    rw [crcBits, crcBit_of_low_zero (h 0 (by omega)), ih, ← BitVec.shiftRight_add, Nat.add_comm 1]
    intro k hk
    rw [BitVec.getLsbD_ushiftRight, Nat.add_comm]
    exact h (k + 1) (by omega)

/-- A byte step is linear in the register and the byte together. -/
theorem crcByte_xor (r q : Word) (a b : Byte) : crcByte (r ^^^ q) (a ^^^ b) = crcByte r a ^^^ crcByte q b := by
  rw [crcByte, crcByte, crcByte, ← crcBits_xor, BitVec.setWidth_xor]
  congr 1
  ac_rfl

theorem crcByte_injective_register (b : Byte) : Function.Injective fun r => crcByte r b := fun _ _ h =>
  (BitVec.xor_left_inj _).mp (crcBits_injective 8 h)

theorem crcByte_injective_byte (r : Word) : Function.Injective (crcByte r) := by
  intro a b h
  have hwide : a.setWidth 32 = b.setWidth 32 := (BitVec.xor_right_inj _).mp (crcBits_injective 8 h)
  have hback := congrArg (BitVec.setWidth 8) hwide
  simpa using hback

/-- The run over two sequences of equal length is linear in the registers and the sequences together. -/
theorem crcRun_xor {a b : List Byte} (h : a.length = b.length) (r q : Word) :
    crcRun r a ^^^ crcRun q b = crcRun (r ^^^ q) (List.zipWith (· ^^^ ·) a b) := by
  induction a generalizing b r q with
  | nil =>
    obtain rfl := List.length_eq_zero_iff.mp h.symm
    rfl
  | cons x a ih =>
    obtain ⟨y, b, rfl⟩ := List.exists_cons_of_length_eq_add_one h.symm
    have hrun := ih (Nat.succ.inj h) (crcByte r x) (crcByte q y)
    rw [← crcByte_xor] at hrun
    exact hrun

/-- The bytes that follow keep two different register values apart. -/
theorem crcRun_injective_register (s : List Byte) : Function.Injective fun r => crcRun r s := by
  induction s with
  | nil => exact fun _ _ h => h
  | cons b s ih => exact ih.comp (crcByte_injective_register b)

/-! ## The byte-at-a-time form -/

/-- A register value is its upper 24 bits and its low byte. -/
theorem word_eq_high_xor_low (r : Word) : r = (r >>> 8 <<< 8) ^^^ (r.extractLsb' 0 8).setWidth 32 := by
  refine BitVec.eq_of_getLsbD_eq fun k hk => ?_
  by_cases hlow : k < 8
  · simp [hlow, hk]
  · simp [hlow, hk, Nat.le_of_not_lt hlow]

/-- Eight bit steps shift the upper bits down and look the low byte up in the table. -/
theorem crcBits_eight (r : Word) : crcBits 8 r = (r >>> 8) ^^^ crcTable (r.extractLsb' 0 8) := by
  have hhigh : crcBits 8 (r >>> 8 <<< 8) = r >>> 8 := by
    rw [crcBits_of_low_zeros (fun k hk => by simp [hk])]
    refine BitVec.eq_of_getLsbD_eq fun k _ => ?_
    simpa using BitVec.lt_of_getLsbD
  calc crcBits 8 r = crcBits 8 ((r >>> 8 <<< 8) ^^^ (r.extractLsb' 0 8).setWidth 32) := by
        rw [← word_eq_high_xor_low]
    _ = (r >>> 8) ^^^ crcTable (r.extractLsb' 0 8) := by rw [crcBits_xor, hhigh, crcTable]

/-- The table form of a byte step is the bitwise one: a byte does not reach the upper bits of the register (R113). -/
theorem crcByteByTable_eq_crcByte : crcByteByTable = crcByte := by
  funext r b
  have hupper : (r ^^^ b.setWidth 32) >>> 8 = r >>> 8 := by
    refine BitVec.eq_of_getLsbD_eq fun k _ => ?_
    simp
  rw [crcByte, crcBits_eight, hupper, crcByteByTable]

/-- The table index of R113: to mask with 0xFF and drop the other bits is to take the low byte. -/
theorem setWidth_and_255 (r : Word) : (r &&& 0xFF#32).setWidth 8 = r.extractLsb' 0 8 := by
  have hmask : (0xFF#32).setWidth 8 = BitVec.allOnes 8 := by decide
  rw [BitVec.setWidth_and, hmask, BitVec.and_allOnes, BitVec.setWidth_eq_extractLsb' (by decide)]

/-- Settles O52: the byte steps of both forms are one function; the printed entries are the bit steps run. -/
theorem crcTableFormAgrees : Obligations.CrcTableFormAgrees := by
  refine ⟨fun _ => rfl, fun r b => ?_, fun s => ?_, by decide, by decide, by decide, by decide, by decide⟩
  · rw [setWidth_and_255, ← crcByteByTable_eq_crcByte, crcByteByTable]
  · rw [crcByteByTable_eq_crcByte]; rfl

/-! ## CRC32 over XOR, and of a changed byte -/

/-- The difference of two CRC-32 values is the run over the differences from the register value 0: initial value and final
XOR drop out. -/
theorem crc32_xor_crc32 {a b : List Byte} (h : a.length = b.length) :
    crc32 a ^^^ crc32 b = crcRun 0#32 (List.zipWith (· ^^^ ·) a b) :=
  calc crc32 a ^^^ crc32 b = (crcRun crcInit a ^^^ crcRun crcInit b) ^^^ (crcXorOut ^^^ crcXorOut) := by
        rw [crc32, crc32]; ac_rfl
    _ = crcRun 0#32 (List.zipWith (· ^^^ ·) a b) := by
        rw [crcRun_xor h, BitVec.xor_self, BitVec.xor_self, BitVec.xor_zero]

theorem zipWith_xor_replicate_zero (s : List Byte) :
    List.zipWith (· ^^^ ·) s (List.replicate s.length 0x00#8) = s := by
  induction s with
  | nil => rfl
  | cons b s ih => rw [List.length_cons, List.replicate_succ, List.zipWith_cons_cons, ih, BitVec.xor_zero]

/-- Settles O53: by `crc32_xor_crc32` both sides are the run over the XOR of the sequences from 0, on the right because XOR
with zero bytes changes nothing. -/
theorem crcIsAffine : Obligations.CrcIsAffine := by
  intro a b h
  have hlength : a.length = (List.zipWith (· ^^^ ·) a b).length := by rw [List.length_zipWith, ← h, Nat.min_self]
  rw [crc32_xor_crc32 h, hlength, crc32_xor_crc32 (by simp), zipWith_xor_replicate_zero]

/-- Sequences that differ in one byte only have different CRC-32 values: the byte step tells the bytes apart, and the rest
keeps the registers apart. -/
theorem crc32_append_cons_injective (pre post : List Byte) :
    Function.Injective fun b : Byte => crc32 (pre ++ b :: post) := by
  intro x y h
  have hrun : crcRun crcInit (pre ++ x :: post) = crcRun crcInit (pre ++ y :: post) := (BitVec.xor_left_inj _).mp h
  simp only [crcRun, List.foldl_append, List.foldl_cons] at hrun
  exact crcByte_injective_byte _ (crcRun_injective_register post hrun)

/-- Settles O54: to flip bit `k` of a byte is to change the byte. -/
theorem crcSeesEverySingleBit : Obligations.CrcSeesEverySingleBit := by
  intro pre post b k hk h
  have hsame : b ^^^ 1#8 <<< k = b := crc32_append_cons_injective pre post h
  have hbit : (b ^^^ 1#8 <<< k).getLsbD k = !b.getLsbD k := by simp [hk]
  rw [hsame] at hbit
  simp at hbit

end Sys2Proof.Machine
end

section
/-! The status of an operation, decided by the tests of R126 in their order (spec/60_exceptions.md R120 to R122, R126,
R127). -/

namespace Sys2Proof.Machine

/-! ## The fields that the tests look at -/

section
variable {s : State} {d : BitVec 1} {hi lo b : Byte} {et : Half}

theorem State.peekHalf_of_bytes {a : Nat} (hhi : s.fb.lookup a = some hi) (hlo : s.fb.lookup (a + 1) = some lo) :
    s.peekHalf a = hi ++ lo := by
  rw [State.peekHalf, State.peek, State.peek, hhi, hlo]; rfl

theorem State.peekHalf_of_readEtherType (h : s.readEtherType = .next et) : s.peekHalf 12 = et := by
  obtain ⟨-, _, _, hhi, hlo, rfl⟩ := State.readEtherType_eq_next.mp h
  exact State.peekHalf_of_bytes hhi hlo

theorem State.peekSpan_of_byte (h : s.fb.lookup 14 = some b) : s.peekSpan = (spanOf (ihlOf b)).toNat := by
  rw [spanOf_toNat, State.peekSpan, State.peek, ipOff, h]; rfl

/-- The test of S4, NEW = OLD, is whether DF already has its value (R85). -/
theorem State.FlagsRead.dfBit_eq_iff (h : s.FlagsRead hi lo) :
    dfBit (s.peekHalf 20) = d ↔ newFlags d (hi ++ lo) = hi ++ lo := by
  rw [State.peekHalf_of_bytes h.high h.low, newFlags_eq_self_iff]

/-- The flags field of the rewritten frame is NEW: neither the checksum nor the FCS is stored over it (R88, R89). -/
theorem State.rewritten_finish_peekHalf {u : State} (hlen : 38 ≤ u.len) (hdr body : List Byte) (c : Status) :
    ((u.rewritten hdr body).finish c).peekHalf 20 = u.new := by
  have hbyte {a : Nat} (ha : a < 24) : ((u.rewritten hdr body).finish c).fb.lookup a =
      if a = 20 then some (u.new.extractLsb' 8 8) else if a = 21 then some (u.new.extractLsb' 0 8)
      else u.fb.lookup a :=
    State.rewrittenFb_lookup hlen _ _ (by omega) (by omega) (.inl (by omega))
  exact (State.peekHalf_of_bytes (hbyte (by decide)) (hbyte (by decide))).trans (half_of_bytes u.new)

end

/-! ## What each end says of the tests -/

section
variable {d : BitVec 1} {s t : State}

/-- The status of each end is that of the first test that is not passed, and OK when all are (R126). -/
theorem MdfEnd.status_eq (h : MdfEnd d s t) :
    t.status =
      if s.len < 38 then 1#2
      else if s.peekHalf 12 ≠ 0x0800#16 then 2#2
      else if dfBit (s.peekHalf 20) = d then 0#2
      else if s.len < 14 + s.peekSpan then 3#2
      else 0#2 := by
  have htested {hi lo : Byte} (hread : s.FlagsRead hi lo) : ¬ s.len < 38 ∧ ¬ s.peekHalf 12 ≠ 0x0800#16 :=
    ⟨Nat.not_lt.mpr hread.long, not_not.mpr (State.peekHalf_of_readEtherType hread.ipv4)⟩
  cases h with
  | tooSmall hshort =>
    rw [if_pos hshort]; rfl
  | foreign hlong htype hforeign =>
    rw [etypeIpv4] at hforeign
    rw [if_neg (Nat.not_lt.mpr hlong), State.peekHalf_of_readEtherType htype, if_pos hforeign]; rfl
  | unchanged hread hsame =>
    obtain ⟨hlong, hipv4⟩ := htested hread
    rw [if_neg hlong, if_neg hipv4, if_pos (hread.dfBit_eq_iff.mpr hsame)]; rfl
  | spanLeaves hread hchanged h14 hout =>
    obtain ⟨hlong, hipv4⟩ := htested hread
    rw [if_neg hlong, if_neg hipv4, if_neg (mt hread.dfBit_eq_iff.mp hchanged), State.peekSpan_of_byte h14,
      if_pos hout]; rfl
  | rewritten _ _ hread hchanged h14 hfits =>
    obtain ⟨hlong, hipv4⟩ := htested hread
    rw [if_neg hlong, if_neg hipv4, if_neg (mt hread.dfBit_eq_iff.mp hchanged), State.peekSpan_of_byte h14,
      if_neg (Nat.not_lt.mpr hfits)]; rfl

/-- OK means that DF is as asked: it was so at the unchanged test, or the rewrite stored it (R120). -/
theorem MdfEnd.dfBit_of_ok (h : MdfEnd d s t) (hok : t.status = Status.ok.code) : dfBit (t.peekHalf 20) = d := by
  cases h with
  | tooSmall | foreign | spanLeaves => simp [Status.code] at hok
  | unchanged hread hsame => exact hread.dfBit_eq_iff.mpr hsame
  | @rewritten hi lo b hdr body hread =>
    have hnew := State.rewritten_finish_peekHalf (u := (s.flagsLoaded d hi lo).spanLoaded b) hread.long hdr body .ok
    rw [hnew]
    exact dfBit_newFlags d (hi ++ lo)

end

/-! ## On a filled buffer every operation completes -/

/-- The bytes of FB as a list. -/
def State.frame (s : State) : List Byte := (List.range s.len).map s.peek

/-- A filled buffer holds the list of its bytes. -/
theorem State.holds_frame {s : State} (hf : s.filled) : s.holds s.frame := by
  have hlength : s.frame.length = s.len := by rw [State.frame, List.length_map, List.length_range]
  refine ⟨hlength.symm, fun a ha => ?_⟩
  rw [hlength] at ha
  obtain ⟨b, hb⟩ := Option.isSome_iff_exists.mp (hf a ha)
  rw [State.frame, List.getElem?_map, List.getElem?_range ha, Option.map_some, State.peek, hb]; rfl

/-- Settles O12: the operation completes because a filled buffer holds a frame; `MdfEnd` knows how it can end, and all ends
are the one shared ending. -/
theorem statusDecidedInOrder : Obligations.StatusDecidedInOrder := by
  intro i s hf
  obtain ⟨t, ht, -⟩ := mdf_of_holds (State.holds_frame hf) i.commandBit
  have hend := mdf_next_end ht
  obtain ⟨hdone, hbusy⟩ : t.done = true ∧ t.busy = false := by
    obtain ⟨u, c, rfl⟩ := mdf_next_finish ht
    exact ⟨rfl, rfl⟩
  exact ⟨t, (exec_eq_mdf i s).trans ht, hdone, hbusy, hend.dfBit_of_ok, hend.status_eq⟩

/-! ## The two failures of the validations -/

/-- Settles O8: the exit of S1, before any byte is read. -/
theorem shortBufferFails : Obligations.ShortBufferFails := by
  intro i s hshort
  rw [exec_eq_mdf]
  exact mdf_eq_next.mpr (.inl ⟨hshort, rfl⟩)

/-- Settles O9: the exit of S2, where the EtherType read from bytes 12 and 13 is a foreign one. -/
theorem foreignEtherTypeFails : Obligations.ForeignEtherTypeFails := by
  intro i s hi lo hlong h12 h13 hforeign
  have htype : s.readEtherType = .next (hi ++ lo) :=
    State.readEtherType_eq_next.mpr ⟨by omega, hi, lo, h12, h13, rfl⟩
  rw [exec_eq_mdf]
  exact mdf_eq_next.mpr (.inr ⟨hlong, _, htype, .inl ⟨hforeign, rfl⟩⟩)

end Sys2Proof.Machine
end

section
/-! Reset in the middle of an operation: which bytes of FB it draws anew (spec/70_reset_and_hazards.md R142). -/

namespace Sys2Proof.Machine

/-- The offsets that R142 gives up: the flags field, the checksum field and the last four bytes, of a buffer of at least
38 bytes. -/
theorem mem_writeOffsets {len a : Nat} :
    a ∈ writeOffsets len ↔ minLen ≤ len ∧
      (a = fragOff ∨ a = fragOff + 1 ∨ a = csumOff ∨ a = csumOff + 1 ∨ (fcsOff len ≤ a ∧ a < len)) := by
  unfold writeOffsets
  split
  case isTrue hshort => simp [hshort]
  case isFalse hlong =>
    have hfcs : fcsOff len + 4 = len := Nat.sub_add_cancel (Nat.le_trans (by decide) (Nat.not_lt.mp hlong))
    simp only [List.mem_cons, List.not_mem_nil, or_false]
    omega

/-- Reset in the middle of an operation keeps every byte that the operation may not write. -/
theorem callerReset_lookup_of_notMem {s : State} {a : Nat} (hrunning : s.phase ≠ .idle)
    (ha : a ∉ writeOffsets s.len) : (callerReset s).fb.lookup a = s.fb.lookup a := by
  have hfb : (callerReset s).fb = s.drawBytes s.fb 10 (writeOffsets s.len) := if_neg hrunning
  rw [hfb, State.drawBytes_lookup ha]

/-- Settles O7: a short buffer has no offset to give up, and in a long one `a` is none of them. -/
theorem resetDuringOperationKeepsOtherBytes : Obligations.ResetDuringOperationKeepsOtherBytes := by
  intro s a hrunning hkept
  refine callerReset_lookup_of_notMem hrunning fun hmem => ?_
  obtain ⟨hlong, hoffset⟩ := mem_writeOffsets.mp hmem
  rcases hkept with hshort | hother
  · exact Nat.not_lt.mpr hlong hshort
  · omega

end Sys2Proof.Machine
end

section
/-! What the block starts from, and the one thing an operation is refused for: a byte of FB that nothing has written
(spec/10_state.md R30; spec/93_implementation_defined.md U4; log 1 to 6). -/

namespace Sys2Proof.Machine

/-- Settles O6: no byte is listed in the empty memory, and each register is zero by the definition of reset. -/
theorem resetValuesChosen : Obligations.ResetValuesChosen :=
  ⟨Memory.lookup_nil, rfl, rfl, rfl, rfl, rfl, rfl, rfl, rfl, rfl, rfl, rfl⟩

/-! ## Parts of the operation that are refused for unwritten bytes only -/

/-- The reason `r` names a byte of the buffer that nothing has written. -/
def State.LacksByte (s : State) (r : Refusal) : Prop :=
  ∃ a, a < s.len ∧ s.fb.lookup a = none ∧ r = .unwrittenByte a

/-- From `s` to `t` the buffer keeps its length and every written byte stays written. -/
structure State.KeepsWritten (s t : State) : Prop where
  len : t.len = s.len
  unwritten : ∀ a, t.fb.lookup a = none → s.fb.lookup a = none

/-- A byte that is still lacking after a part of the operation was lacking before it. -/
theorem State.LacksByte.of_keepsWritten {s t : State} {r : Refusal} (hkeep : s.KeepsWritten t) (h : t.LacksByte r) :
    s.LacksByte r := by
  obtain ⟨a, ha, hnone, hr⟩ := h
  exact ⟨a, hkeep.len ▸ ha, hkeep.unwritten a hnone, hr⟩

/-- A part of the operation that is refused for nothing but an unwritten byte and makes no byte unwritten. -/
structure RefusedOnlyUnwritten (op : State → Host.Outcome State Fault Refusal) : Prop where
  refused : ∀ s r, op s = .refused r → s.LacksByte r
  keeps : ∀ s t, op s = .next t → s.KeepsWritten t

section
variable {op op' : State → Host.Outcome State Fault Refusal}

/-- An update of the registers reads no byte and leaves the buffer alone. -/
theorem RefusedOnlyUnwritten.update {g : State → State} (hfb : ∀ s, (g s).fb = s.fb) (hlen : ∀ s, (g s).len = s.len) :
    RefusedOnlyUnwritten fun s => .next (g s) where
  refused _ _ h := by cases h
  keeps s t h := by
    obtain rfl := Host.Outcome.next.inj h
    exact ⟨hlen s, fun a ha => hfb s ▸ ha⟩

/-- One part after another: what the second lacks, the first has not had either. -/
theorem RefusedOnlyUnwritten.seq (hop : RefusedOnlyUnwritten op) (hop' : RefusedOnlyUnwritten op') :
    RefusedOnlyUnwritten fun s => andThen (op s) op' where
  refused s r h := by
    rcases andThen_eq_refused.mp h with hfirst | ⟨t, hfirst, hsecond⟩
    · exact hop.refused s r hfirst
    · exact (hop'.refused t r hsecond).of_keepsWritten (hop.keeps s t hfirst)
  keeps s u h := by
    obtain ⟨t, hfirst, hsecond⟩ := andThen_eq_next.mp h
    have hst := hop.keeps s t hfirst
    have htu := hop'.keeps t u hsecond
    exact ⟨htu.len.trans hst.len, fun a ha => hst.unwritten a (htu.unwritten a ha)⟩

/-- A read of the buffer, and a part that goes on from the same state with the value read. -/
theorem RefusedOnlyUnwritten.read {α : Type} {x : State → Host.Outcome α Fault Refusal}
    {f : State → α → Host.Outcome State Fault Refusal} (hx : ∀ s r, x s = .refused r → s.LacksByte r)
    (hf : ∀ v, RefusedOnlyUnwritten fun s => f s v) : RefusedOnlyUnwritten fun s => andThen (x s) (f s) where
  refused s r h := by
    rcases andThen_eq_refused.mp h with hread | ⟨v, -, hrest⟩
    · exact hx s r hread
    · exact (hf v).refused s r hrest
  keeps s t h := by
    obtain ⟨v, -, hrest⟩ := andThen_eq_next.mp h
    exact (hf v).keeps s t hrest

/-- A test with its two sides. -/
theorem RefusedOnlyUnwritten.ite {c : State → Prop} [DecidablePred c] (hop : RefusedOnlyUnwritten op)
    (hop' : RefusedOnlyUnwritten op') : RefusedOnlyUnwritten fun s => if c s then op s else op' s where
  refused s r h := by
    split at h
    · exact hop.refused s r h
    · exact hop'.refused s r h
  keeps s t h := by
    split at h
    · exact hop.keeps s t h
    · exact hop'.keeps s t h

end

/-! ## The steps of R80 -/

/-- Every exit, and the end of the rewrite. -/
theorem finish_refusedOnlyUnwritten (c : Status) : RefusedOnlyUnwritten fun s => .next (s.finish c) :=
  .update (fun _ => rfl) fun _ => rfl

/-- A write is never refused, and it leaves the bytes it covers written. -/
theorem memWrite_refusedOnlyUnwritten (a : State → Nat) (n : Nat) (v : State → BitVec (8 * n)) :
    RefusedOnlyUnwritten fun s => s.memWrite (a s) n (v s) where
  refused s r h := absurd h (State.memWrite_not_refused s _ n _ r)
  keeps s t h := by
    obtain ⟨hother, hframe, -⟩ := State.memWrite_next_frame h
    refine ⟨by rw [hother]; rfl, fun c hnone => ?_⟩
    by_cases hin : a s ≤ c ∧ c < a s + n
    · obtain ⟨k, rfl⟩ := Nat.exists_eq_add_of_le hin.1
      rw [State.memWrite_lookup h (by omega)] at hnone
      cases hnone
    · rw [← hframe c (by omega), hnone]

theorem loadFlags_refusedOnlyUnwritten (d : BitVec 1) : RefusedOnlyUnwritten fun s => s.loadFlags d :=
  .read (fun _ _ => State.memRead_eq_refused) fun _ => .update (fun _ => rfl) fun _ => rfl

theorem loadSpan_refusedOnlyUnwritten : RefusedOnlyUnwritten State.loadSpan :=
  .read (fun _ _ h => ⟨_, State.readByte_eq_refused.mp h⟩) fun _ => .update (fun _ => rfl) fun _ => rfl

theorem runCsum_refusedOnlyUnwritten : RefusedOnlyUnwritten State.runCsum :=
  .read (fun _ _ => State.readSpan_eq_refused) fun _ => .update (fun _ => rfl) fun _ => rfl

theorem runCrc_refusedOnlyUnwritten : RefusedOnlyUnwritten State.runCrc :=
  .read (fun _ _ => State.readSpan_eq_refused) fun _ => .update (fun _ => rfl) fun _ => rfl

/-- S6 to S12, step after step. -/
theorem rewrite_refusedOnlyUnwritten : RefusedOnlyUnwritten State.rewrite :=
  (memWrite_refusedOnlyUnwritten _ _ _).seq <|
  (memWrite_refusedOnlyUnwritten _ _ _).seq <|
  runCsum_refusedOnlyUnwritten.seq <|
  (memWrite_refusedOnlyUnwritten _ _ _).seq <|
  runCrc_refusedOnlyUnwritten.seq <|
  (memWrite_refusedOnlyUnwritten _ _ _).seq <|
  finish_refusedOnlyUnwritten .ok

/-- The whole operation, test after test in the order of R126. -/
theorem mdf_refusedOnlyUnwritten (d : BitVec 1) : RefusedOnlyUnwritten (mdf d) :=
  .ite (finish_refusedOnlyUnwritten .frameTooSmall) <|
  .read (fun _ _ => State.memRead_eq_refused) fun _ =>
  .ite (finish_refusedOnlyUnwritten .notIpv4) <|
  (loadFlags_refusedOnlyUnwritten d).seq <|
  .ite (finish_refusedOnlyUnwritten .ok) <|
  loadSpan_refusedOnlyUnwritten.seq <|
  .ite (finish_refusedOnlyUnwritten .spanOutOfFrame) rewrite_refusedOnlyUnwritten

/-- Settles O25: `mdf_refusedOnlyUnwritten`, both commands being MDF with their own bit. -/
theorem operationRefusedOnlyForUnwrittenByte : Obligations.OperationRefusedOnlyForUnwrittenByte := by
  intro i s r h
  rw [exec_eq_mdf] at h
  exact (mdf_refusedOnlyUnwritten i.commandBit).refused s r h

end Sys2Proof.Machine
end
